-- ==== Sys2Proof/Word.lean ====
section
/-! DEFINITION. The widths of the engine's values (spec R6, R10, R20, R31, R80): plain names for bit vectors of one
fixed width each, and the index of a lane. -/

namespace Sys2Proof

/-- A lane's value or one byte of the buffer: 8 bits, unsigned (R10, R20, R33). -/
abbrev Byte := BitVec 8

/-- An IV word, a register of the host window, the data of a host access: 32 bits (R31, R35, R52). -/
abbrev Word32 := BitVec 32

/-- A micro-operation word `u[11:0]` (R80). -/
abbrev MicroWord := BitVec 12

/-- The index of one of the 16 lanes `L[0]` to `L[15]` (R6, R20). -/
abbrev LaneIx := Fin 16

end Sys2Proof
end

