-- ==== Sys2Proof/Machine/Flags.lean ====
section
/-! DEFINITION. The arithmetic of lanes and the carry cell (R11): exact sums and differences, narrowed to a byte, and the
carry or borrow out. The carry cell is the engine's only flag (R23). -/

namespace Sys2Proof.Machine

/-- `u8(v) = v mod 256` (R11). -/
def u8 (v : Nat) : Byte := BitVec.ofNat 8 v

/-- `bit8(v) = floor(v / 256) mod 2` (R11). -/
def bit8 (v : Nat) : Bool := decide (v / 256 % 2 = 1)

/-- The exact sum `x + y + C`, 0 to 511 (R113, R134). -/
def sum9 (x y : Byte) (c : Bool) : Nat := x.toNat + y.toNat + c.toNat

/-- The byte result of add-with-carry: `s[7:0]` (R113, R134). -/
def adcResult (x y : Byte) (c : Bool) : Byte := u8 (sum9 x y c)

/-- The carry out of add-with-carry: `s[8]`, the 9th bit of the sum (R113, R134). -/
def adcCarry (x y : Byte) (c : Bool) : Bool := bit8 (sum9 x y c)

/-- The exact difference `x - y - C`, -256 to 255 (R135). -/
def diff9 (x y : Byte) (c : Bool) : Int := (x.toNat : Int) - (y.toNat : Int) - (c.toNat : Int)

/-- The byte result of subtract-with-carry: `d mod 256` (R135). -/
def sbcResult (x y : Byte) (c : Bool) : Byte := BitVec.ofInt 8 (diff9 x y c)

/-- The borrow out of subtract-with-carry: 1 exactly when `d < 0` (R135, R11). -/
def sbcBorrow (x y : Byte) (c : Bool) : Bool := decide (diff9 x y c < 0)

/-- The nibble-swap of a byte: `x[3:0] ++ x[7:4]` (R115). -/
def swapNibbles (x : Byte) : Byte := x.extractLsb' 0 4 ++ x.extractLsb' 4 4

end Sys2Proof.Machine
end

