-- ==== Sys2Proof/Syntax.lean ====
section
/-! DEFINITION. The engine's micro-operations: one constructor per row of spec/opcode_table.json (R82). Lane operands
are lane indices, so no register number outside 0 to 15 can be written down (R83). -/

namespace Sys2Proof

/-- A micro-operation (R82). Format R has two lanes, formats U and M one; the buffer operand `[Z+]` of format M is
implicit (R83). -/
inductive Instr where
  /-- `adc La, Lb`: add-with-carry, lane with lane (R113). -/
  | adc (a b : LaneIx)
  /-- `xor La, Lb`: exclusive or, lane with lane (R114). -/
  | xor (a b : LaneIx)
  /-- `swap La`: exchange a lane's nibbles (R115). -/
  | swap (a : LaneIx)
  /-- `madc La, [Z+]`: add-with-carry, lane with buffer byte (R134). -/
  | madc (a : LaneIx)
  /-- `msbc La, [Z+]`: subtract-with-carry, lane with buffer byte (R135). -/
  | msbc (a : LaneIx)
  /-- `mxor La, [Z+]`: exclusive or, lane with buffer byte (R136). -/
  | mxor (a : LaneIx)
deriving DecidableEq, Repr

end Sys2Proof
end

