-- ==== Sys2Proof/WellFormed.lean ====
section
/-! DEFINITION. Which sequences of micro-operations the spec calls well-formed: a round-function table (R86) and a mixer
schedule (R90). A single micro-operation needs no check of its own: its type admits exactly the operands the spec
admits. -/

namespace Sys2Proof

/-- The micro-operations a round-function table may hold: `ADC`, `XOR` and `SWAP` (R86, R117). -/
def Instr.isRound : Instr → Bool
  | .adc _ _ => true
  | .xor _ _ => true
  | .swap _ => true
  | .madc _ => false
  | .msbc _ => false
  | .mxor _ => false

/-- The lane of a format M micro-operation, none for the other formats (R82, R90). -/
def Instr.mixerLane? : Instr → Option LaneIx
  | .adc _ _ => none
  | .xor _ _ => none
  | .swap _ => none
  | .madc a => some a
  | .msbc a => some a
  | .mxor a => some a

/-- A well-formed `RF_TABLE`: at most 255 entries, each an `ADC`, `XOR` or `SWAP` (R7, R86). -/
def RfTable.wf (t : List Instr) : Bool :=
  decide (t.length ≤ 255) && t.all Instr.isRound

/-- A well-formed mixer schedule: 16 entries, entry `i` of format M with lane `i` (R90). -/
def MixTable.wf (t : List Instr) : Bool :=
  t.map Instr.mixerLane? == (List.finRange 16).map some

end Sys2Proof
end

