-- ==== Sys2Proof/Config.lean ====
section
/-! DEFINITION. What is fixed when the hardware is built and the spec leaves open (the round-function tables, the
variant, the window's base address), and the free values that the spec calls `draw()`. All of it is opaque: nothing can
be proved of it beyond what its type says. -/

namespace Sys2Proof

/-- `RF_VARIANT`: which table the hardware carries (R8). The fourth code, 3, is reserved and has no constructor, so a
configuration with it cannot be built (spec/93_implementation_defined.md I10). -/
inductive RfVariant where
  | a
  | b
  | custom
deriving DecidableEq, Repr

/-- The code of the variant in `CONFIG[9:8]` (R37). -/
def RfVariant.code : RfVariant → BitVec 2
  | .a => 0
  | .b => 1
  | .custom => 2

/-- The variant a configuration code names; the reserved code 3 is refused (I10). -/
def RfVariant.ofCode? (c : BitVec 2) : Option RfVariant :=
  if c = 0 then some .a else if c = 1 then some .b else if c = 2 then some .custom else none

/-- The open parameters of the round function: the two repository tables `RF_TABLE_A` and `RF_TABLE_B` (R87), a
`CUSTOM` table (R8), and the variant that selects among them. -/
structure RfConfig where
  tableA : List Instr
  tableB : List Instr
  custom : List Instr
  variant : RfVariant
deriving DecidableEq, Repr

/-- What the spec says of the open tables: each is well-formed (R86, R87); A and B agree on entries 0 to 15, so both
have them, and differ at a later entry or in length (R9). R87's quoted "each lane feeds several later lanes within the
same call" gives no count and no meaning of "feeds": DESIGN CHOICE, it puts no constraint on the tables.
R8 calls CUSTOM "any other well-formed table": DESIGN CHOICE, "other" puts no constraint either, so `custom` may equal
`tableA` or `tableB` (for both: notes/assumptions/4.md). -/
abbrev RfConfig.ok (c : RfConfig) : Prop :=
  RfTable.wf c.tableA = true ∧ RfTable.wf c.tableB = true ∧ RfTable.wf c.custom = true ∧
    16 ≤ c.tableA.length ∧ 16 ≤ c.tableB.length ∧
    c.tableA.take 16 = c.tableB.take 16 ∧ c.tableA ≠ c.tableB

/-- The built chip's parameters: OPEN in the spec, so any configuration that meets `RfConfig.ok`. -/
opaque Config.rfOpen [Inhabited (Subtype RfConfig.ok)] : Subtype RfConfig.ok

/-- That some configuration meets `RfConfig.ok` (needed to name an arbitrary one; which one it is says nothing about
`Config.rf`, which is opaque). -/
@[reducible] def Config.rfWitness : Inhabited (Subtype RfConfig.ok) :=
  ⟨⟨⟨List.replicate 16 (.swap 0), List.replicate 17 (.swap 0), [], .custom⟩, by decide⟩⟩

/-- The built chip's parameters. -/
def Config.rf : RfConfig := (@Config.rfOpen Config.rfWitness).val

/-- `RF_VARIANT` of the built chip (R8). -/
def Config.rfVariant : RfVariant := Config.rf.variant

/-- `RF_TABLE`: the table the variant selects (R7, R8). -/
def Config.rfTable : List Instr :=
  match Config.rf.variant with
  | .a => Config.rf.tableA
  | .b => Config.rf.tableB
  | .custom => Config.rf.custom

/-- `DANCE_BASE`: the window's base address in the host's address space (R53, OPEN). -/
opaque Config.danceBase : Nat

/-! The free values `draw()` (R12). A draw is an opaque constant applied to the number of the draw (and the index of
the byte, word or lane), so no proof can see its value. -/

/-- Lane `l` after reset number `n` (R41). -/
opaque Config.drawLane (n l : Nat) : Byte

/-- The carry cell after reset number `n` (R41). -/
opaque Config.drawCarry (n : Nat) : Bool

/-- The cursor after reset number `n` (R41). -/
opaque Config.drawCursor (n : Nat) : BitVec 6

/-- The sequencer counter `outer` after reset number `n` (R41). -/
opaque Config.drawOuter (n : Nat) : BitVec 3

/-- The sequencer counter `row` after reset number `n` (R41). -/
opaque Config.drawRow (n : Nat) : BitVec 2

/-- The sequencer counter `k` after reset number `n` (R41). -/
opaque Config.drawK (n : Nat) : BitVec 8

/-- The sequencer counter `i` after reset number `n` (R41). -/
opaque Config.drawI (n : Nat) : BitVec 4

/-- IV word `w` after reset number `n` (R41). -/
opaque Config.drawIv (n w : Nat) : Word32

/-- Buffer byte `z` after reset number `n`, until it is written (R41, R42, R221). -/
opaque Config.drawBuf (n z : Nat) : Byte

/-- The data bits of a host read that returns any value (R62, R64). -/
opaque Config.drawRead (n : Nat) : Word32

end Sys2Proof
end

