-- ==== Sys2Proof/Decode.lean ====
section
/-! DEFINITION. The micro-operation encoding (R80 to R84, R91): a decoder, total on every 12-bit word, which rejects a
reserved word by the reason the spec gives, and an encoder written from the same tables. -/

namespace Sys2Proof

/-- Why a word is reserved (R84). -/
inductive DecodeError where
  /-- Bit 8, `RSV`, is 1. -/
  | reservedRsv
  /-- `OP` is 011 or 111. -/
  | reservedOp
  /-- A format U or M word whose `B` field is not 0. -/
  | reservedB
deriving DecidableEq, Repr

/-- The field `OP`, bits 11:9 (R81). -/
def opField (u : MicroWord) : BitVec 3 := u.extractLsb' 9 3

/-- The field `RSV`, bit 8 (R81). -/
def rsvField (u : MicroWord) : BitVec 1 := u.extractLsb' 8 1

/-- The field `A`, bits 7:4: the destination lane, also the first source (R81, R83). -/
def aField (u : MicroWord) : BitVec 4 := u.extractLsb' 4 4

/-- The field `B`, bits 3:0: the second source lane in format R (R81, R83). -/
def bField (u : MicroWord) : BitVec 4 := u.extractLsb' 0 4

/-- The lane a 4-bit field names (R83). -/
def laneOf (f : BitVec 4) : LaneIx := f.toFin

/-- A format U or M word: its `B` field must be 0 (R81, R84). -/
def oneLane (u : MicroWord) (mk : LaneIx → Instr) : Except DecodeError Instr :=
  if bField u = 0 then .ok (mk (laneOf (aField u))) else .error .reservedB

/-- The decoder (R82, R84). Total: every word is a micro-operation or a named rejection. -/
def decode (u : MicroWord) : Except DecodeError Instr :=
  if rsvField u ≠ 0 then .error .reservedRsv
  else match (opField u).toNat with
    | 0 => .ok (.adc (laneOf (aField u)) (laneOf (bField u)))
    | 1 => .ok (.xor (laneOf (aField u)) (laneOf (bField u)))
    | 2 => oneLane u .swap
    | 4 => oneLane u .madc
    | 5 => oneLane u .msbc
    | 6 => oneLane u .mxor
    | _ => .error .reservedOp

/-- The 4-bit field that names a lane (R83). -/
def laneField (l : LaneIx) : BitVec 4 := BitVec.ofFin l

/-- A format R word: `OP ++ 0 ++ A ++ B` (R82). -/
def wordR (op : BitVec 3) (a b : LaneIx) : MicroWord := op ++ 0#1 ++ laneField a ++ laneField b

/-- A format U or M word: `OP ++ 0 ++ A ++ 0000` (R82). -/
def wordUM (op : BitVec 3) (a : LaneIx) : MicroWord := op ++ 0#1 ++ laneField a ++ 0#4

/-- The encoder (R82). -/
def encode : Instr → MicroWord
  | .adc a b => wordR 0b000#3 a b
  | .xor a b => wordR 0b001#3 a b
  | .swap a => wordUM 0b010#3 a
  | .madc a => wordUM 0b100#3 a
  | .msbc a => wordUM 0b101#3 a
  | .mxor a => wordUM 0b110#3 a

/-- The instruction the decoder reads from a word as spec/opcode_table.json numbers its bits: bit 0 is bit 0 of the
micro-operation word. A number with a bit above bit 11 is no micro-operation word (R80). -/
def decodeTableWord (_nbits w : Nat) : Option Instr :=
  if w < 4096 then (decode (BitVec.ofNat 12 w)).toOption else none

end Sys2Proof
end

