-- ==== Sys2Proof/Machine/Rom.lean ====
section
/-! DEFINITION. The two sequence ROMs as they hold micro-operation words (R40, R86 to R90), and the reading of a whole ROM
as a program, which answers none for an ill-formed one (R84, spec/93_implementation_defined.md I4). -/

namespace Sys2Proof.Machine

/-- Every word of a ROM decoded, none if one of them is reserved (R84). -/
def decodeAll : List MicroWord → Option (List Instr)
  | [] => some []
  | u :: us =>
    match decode u, decodeAll us with
    | .ok i, some is => some (i :: is)
    | _, _ => none

/-- The round-function program a ROM holds, none if the ROM is ill-formed (R84, R86). -/
def rfProgram (rom : List MicroWord) : Option (List Instr) :=
  (decodeAll rom).filter RfTable.wf

/-- The mixer program a ROM holds, none if the ROM is ill-formed (R84, R90). -/
def mixProgram (rom : Vector MicroWord 16) : Option (List Instr) :=
  (decodeAll rom.toList).filter MixTable.wf

/-- The words of a table of micro-operations, in index order (R86). -/
def romOf (t : List Instr) : List MicroWord := t.map encode

/-- The built chip's round-function ROM (R40, R86, R87). -/
def rfRomBuilt : List MicroWord := romOf Config.rfTable

/-- The mixer ROM's listing (R89). -/
def mixRomListing : Vector MicroWord 16 :=
  #v[0x800, 0xA10, 0xC20, 0x830, 0x840, 0xA50, 0x860, 0x870,
     0xA80, 0xC90, 0xAA0, 0xCB0, 0x8C0, 0xAD0, 0x8E0, 0xAF0]

end Sys2Proof.Machine
end

