-- ==== Sys2Proof/Machine/State.lean ====
section
/-! DEFINITION. The engine's state as plain data: everything spec/10_state.md gives the machine, the two ROMs, the host
port's pending inputs and its read data, and the model's own counters of free values. Reset as R41 gives it. -/

namespace Sys2Proof.Machine

/-- The sequencer's phase (R26). -/
inductive Phase where
  | idle
  | init
  | rf
  | mix
deriving DecidableEq, Repr

/-- The phase's encoding (R26). -/
def Phase.code : Phase → BitVec 2
  | .idle => 0
  | .init => 1
  | .rf => 2
  | .mix => 3

/-- One access of the host port (R52): the ports `wr`, `addr`, `size` and `wdata` in a cycle in which `sel` is 1. -/
structure HostAccess where
  /-- 1 = write, 0 = read. -/
  wr : Bool
  /-- Byte offset in the register window. -/
  addr : BitVec 7
  /-- 0 = 1 byte, 1 = 2 bytes, 2 = 4 bytes, 3 = reserved. -/
  size : BitVec 2
  /-- Write data. -/
  wdata : Word32
deriving DecidableEq, Repr

/-- What happens next in an interleaving of the engine and the outside world (R66, R220). -/
inductive Input where
  /-- The engine takes its step. -/
  | engine
  /-- The host makes one access. -/
  | access (a : HostAccess)
  /-- `rst` is sampled 1. An access presented in that cycle takes no effect (R220). -/
  | rst (presented : Option HostAccess)
deriving DecidableEq, Repr

/-- The buffer as (address, byte) pairs, addresses strictly rising. An address that is not listed has not been written
since reset. -/
abbrev Memory := List Host.Cell

/-- The canonical form: addresses strictly rising, each below 64 (R33). -/
abbrev Memory.wf (m : Memory) : Prop :=
  m.Pairwise (fun x y => x.1 < y.1) ∧ ∀ c ∈ m, c.1 < 64

/-- The engine's state. -/
structure State where
  /-- The lane register file `L` (R20). -/
  lanes : Vector Byte 16
  /-- The carry cell `C` (R23). -/
  carry : Bool
  /-- The sequencer position `upc`: its phase (R26). -/
  phase : Phase
  /-- `upc`: the outer round (R26). -/
  outer : BitVec 3
  /-- `upc`: the row within the round (R26). -/
  row : BitVec 2
  /-- `upc`: the index of the next round-function micro-op (R26). -/
  k : BitVec 8
  /-- `upc`: the index of the next mixer micro-op (R26). -/
  i : BitVec 4
  /-- The buffer cursor `Z` (R28). -/
  z : BitVec 6
  /-- The IV registers `IVW[0]` to `IVW[3]` (R31). -/
  iv : Vector Word32 4
  /-- The buffer `BUF[0..63]` (R33): the bytes written since reset. -/
  buf : Memory
  /-- `CTRL.IE` (R35). -/
  ie : Bool
  /-- `STATUS.DONE` (R36). -/
  done : Bool
  /-- `STATUS.ACCERR` (R36). -/
  accerr : Bool
  /-- The round-function ROM (R40). -/
  rfRom : List MicroWord
  /-- The mixer ROM (R40). -/
  mixRom : Vector MicroWord 16
  /-- `CONFIG.RF_VARIANT`, hardwired (R37). -/
  rfVariant : RfVariant
  /-- The port `rdata`: the data of the host read just made, none when the last step was no host read (R52). -/
  rdata : Option Word32
  /-- What the outside world does next, first first (R66). When nothing is listed the engine steps. -/
  inputs : List Input
  /-- The model's own: the number of the next draw (R12). -/
  draws : Nat
  /-- The model's own: the draw that gave the buffer its contents at the last reset (R42). -/
  bufDraw : Nat
deriving DecidableEq, Repr

/-- Why the engine stops with a fault: never. The spec gives the engine no fault and no stuck state (R158, R200 and
spec/93_implementation_defined.md), so this type has no constructor. -/
inductive Fault where
deriving DecidableEq, Repr

/-- Why the model gives a step no meaning. -/
inductive Refusal where
  /-- Raised by `exec` for an instruction that has no meaning yet (no arm is left so). Safe. -/
  | notModelled (mnemonic : String)
  /-- Raised by the engine's step in `INIT` or `RF` when the round-function ROM is ill-formed by R86: it holds a
  reserved or format M word, or more than 255 words. The spec asks a model to refuse it (R84, I4). Safe. -/
  | illFormedRfRom
  /-- Raised by the engine's step in `INIT` or `MIX` when the mixer ROM is ill-formed by R90. The spec asks a model to
  refuse it (R84, I4). Safe. -/
  | illFormedMixRom
  /-- Raised by the engine's step in `RF` when `k` is no index of the ROM. No run reaches it: R26 bounds `k` by
  `RF_LEN`. Safe. -/
  | noMicroOp
deriving DecidableEq, Repr

/-- The state after reset number `n` of an engine built with these ROMs and this variant, the outside world's inputs
being `inputs` (R41). What the spec leaves unspecified is drawn. -/
def State.afterReset (rfRom : List MicroWord) (mixRom : Vector MicroWord 16) (rfVariant : RfVariant)
    (inputs : List Input) (n : Nat) : State where
  lanes := Vector.ofFn fun l => Config.drawLane n l.val
  carry := Config.drawCarry n
  phase := .idle
  outer := Config.drawOuter n
  row := Config.drawRow n
  k := Config.drawK n
  i := Config.drawI n
  z := Config.drawCursor n
  iv := Vector.ofFn fun w => Config.drawIv n w.val
  buf := []
  ie := false
  done := false
  accerr := false
  rfRom := rfRom
  mixRom := mixRom
  rfVariant := rfVariant
  rdata := none
  inputs := inputs
  draws := n + 1
  bufDraw := n

/-- The machine right after reset (R41): the built chip's ROMs, nothing pending at the host port. -/
def State.reset : State := State.afterReset rfRomBuilt mixRomListing Config.rfVariant [] 0

end Sys2Proof.Machine
end

