-- ==== Sys2Proof/Machine/Ops.lean ====
section
/-! DEFINITION. The named operations over the engine's state (R12): lanes, carry, cursor, buffer bytes, IV registers, the
status bits, the sequencer, the one error primitive, and reset. The spec's engine takes no exception and has no trap
entry or return (R200, R206, R207), so `raiseAccessError` is the only operation of that kind. -/

namespace Sys2Proof.Machine

/-! ## The buffer's bytes as plain data -/

/-- The byte listed at an address, none if the address has not been written since reset. -/
def Memory.read : Memory → Nat → Option Byte
  | [], _ => none
  | c :: m, x => if c.1 = x then some c.2 else Memory.read m x

/-- List a byte at an address, keeping the addresses strictly rising. -/
def Memory.write : Memory → Nat → Byte → Memory
  | [], x, v => [(x, v)]
  | c :: m, x, v =>
    if x < c.1 then (x, v) :: c :: m
    else if x = c.1 then (x, v) :: m
    else c :: Memory.write m x v

/-! ## Reads -/

/-- `BufRead(z)` (R12). A byte that nothing has written since reset reads as the value drawn for it at that reset
(R41, R42). -/
def State.bufRead (s : State) (z : BitVec 6) : Byte :=
  (Memory.read s.buf z.toNat).getD (Config.drawBuf s.bufDraw z.toNat)

/-- The buffer's 64 bytes as they read (R33). -/
def State.buffer (s : State) : Vector Byte 64 :=
  Vector.ofFn fun z => s.bufRead (BitVec.ofFin z)

/-- `RF_LEN`: the number of words of the round-function ROM (R7). -/
def State.rfLen (s : State) : Nat := s.rfRom.length

/-- `STATUS.BUSY`, not a stored bit: `phase != IDLE` (R38). -/
def State.busy (s : State) : Bool := s.phase != .idle

/-- The output `irq = CTRL.IE & STATUS.DONE` (R39, R204). -/
def State.irq (s : State) : Bool := s.ie && s.done

/-! ## Writes -/

/-- `L[a] <- v` (R12). -/
def State.writeLane (s : State) (a : LaneIx) (v : Byte) : State :=
  { s with lanes := s.lanes.set a v }

/-- `C <- c` (R12). -/
def State.writeCarry (s : State) (c : Bool) : State := { s with carry := c }

/-- `BufWrite(z, v)` (R12). -/
def State.bufWrite (s : State) (z : BitVec 6) (v : Byte) : State :=
  { s with buf := Memory.write s.buf z.toNat v }

/-- `Z <- z` (R12). -/
def State.writeCursor (s : State) (z : BitVec 6) : State := { s with z := z }

/-- `IVW[n] <- w` (R12, R61). -/
def State.writeIv (s : State) (n : Fin 4) (w : Word32) : State := { s with iv := s.iv.set n w }

/-- `CTRL.IE <- b` (R170 to R172). -/
def State.writeIe (s : State) (b : Bool) : State := { s with ie := b }

/-- `STATUS.DONE <- b` (R156, R170, R173). -/
def State.writeDone (s : State) (b : Bool) : State := { s with done := b }

/-- `STATUS.ACCERR <- b` (R64, R173). -/
def State.writeAccerr (s : State) (b : Bool) : State := { s with accerr := b }

/-- `phase <- p` (R26). -/
def State.writePhase (s : State) (p : Phase) : State := { s with phase := p }

/-- The port `rdata` shows the data of the read just made (R52). -/
def State.putRdata (s : State) (w : Word32) : State := { s with rdata := some w }

/-- `raise AccessError(info)`: the engine's only error primitive. It sets `STATUS.ACCERR` and records nothing else
(R12, R64, R201, R202). -/
def State.raiseAccessError (s : State) : State := s.writeAccerr true

/-- `rst` sampled 1 (R220): the state takes the values of R41. The ROMs and the variant are hardwired (R40), and what
the outside world does next is not the engine's to change. -/
def State.applyReset (s : State) : State :=
  State.afterReset s.rfRom s.mixRom s.rfVariant s.inputs s.draws

end Sys2Proof.Machine
end

