-- ==== Sys2Proof/Machine/Operands.lean ====
section
/-! DEFINITION. The operand forms of the micro-operations (R83): a lane, and the implicit buffer operand `[Z+]` with its
write-back (R130). -/

namespace Sys2Proof.Machine

/-- The lane operand `L[a]` (R12, R83). -/
def State.lane (s : State) (a : LaneIx) : Byte := s.lanes[a]

/-- The buffer operand `[Z+]`: `BufRead(Z)` (R130). -/
def State.cursorByte (s : State) : Byte := s.bufRead s.z

/-- The end of every format M micro-operation (R130): the value goes to the lane and to the buffer byte at the cursor,
then the cursor advances by 1 modulo 64. -/
def State.mixerWriteBack (s : State) (a : LaneIx) (v : Byte) : State :=
  ((s.writeLane a v).bufWrite s.z v).writeCursor (s.z + 1)

end Sys2Proof.Machine
end

