-- ==== Sys2Proof/Machine/Mixer.lean ====
section
/-! DEFINITION. The meanings of the state mixer's micro-operations MADC, MSBC and MXOR (R130, R134 to R136): combine the
lane with the buffer byte at the cursor, write the result to both, advance the cursor. -/

namespace Sys2Proof.Machine

/-- `MADC La, [Z+]` (R134). -/
def execMadc (a : LaneIx) (s : State) : Host.Outcome State Fault Refusal :=
  .next ((s.mixerWriteBack a (adcResult (s.lane a) s.cursorByte s.carry)).writeCarry
    (adcCarry (s.lane a) s.cursorByte s.carry))

/-- `MSBC La, [Z+]` (R135). The carry cell holds the borrow itself. -/
def execMsbc (a : LaneIx) (s : State) : Host.Outcome State Fault Refusal :=
  .next ((s.mixerWriteBack a (sbcResult (s.lane a) s.cursorByte s.carry)).writeCarry
    (sbcBorrow (s.lane a) s.cursorByte s.carry))

/-- `MXOR La, [Z+]` (R136). -/
def execMxor (a : LaneIx) (s : State) : Host.Outcome State Fault Refusal :=
  .next (s.mixerWriteBack a (s.lane a ^^^ s.cursorByte))

end Sys2Proof.Machine
end

