-- ==== Sys2Proof/Machine/Round.lean ====
section
/-! DEFINITION. The meanings of the round function's micro-operations ADC, XOR and SWAP (R113 to R115). They read every
operand before they write (R13) and touch only lanes and the carry (R110). -/

namespace Sys2Proof.Machine

/-- `ADC La, Lb` (R113). -/
def execAdc (a b : LaneIx) (s : State) : Host.Outcome State Fault Refusal :=
  .next ((s.writeLane a (adcResult (s.lane a) (s.lane b) s.carry)).writeCarry
    (adcCarry (s.lane a) (s.lane b) s.carry))

/-- `XOR La, Lb` (R114). -/
def execXor (a b : LaneIx) (s : State) : Host.Outcome State Fault Refusal :=
  .next (s.writeLane a (s.lane a ^^^ s.lane b))

/-- `SWAP La` (R115). -/
def execSwap (a : LaneIx) (s : State) : Host.Outcome State Fault Refusal :=
  .next (s.writeLane a (swapNibbles (s.lane a)))

end Sys2Proof.Machine
end

