-- ==== Sys2Proof/Machine/Dispatch.lean ====
section
/-! DEFINITION. The dispatch of a micro-operation to its meaning, one arm per constructor. -/

namespace Sys2Proof.Machine

def exec (i : Instr) (s : State) : Host.Outcome State Fault Refusal :=
  match i with
  | .adc a b => Sys2Proof.Machine.execAdc a b s
  | .xor a b => Sys2Proof.Machine.execXor a b s
  | .swap a => Sys2Proof.Machine.execSwap a s
  | .madc a => Sys2Proof.Machine.execMadc a s
  | .msbc a => Sys2Proof.Machine.execMsbc a s
  | .mxor a => Sys2Proof.Machine.execMxor a s

end Sys2Proof.Machine
end

