-- ==== Sys2Proof/Machine/Driver.lean ====
section
/-! DEFINITION. The driver (spec/43_driver.md) and lane initialisation (spec/40_lane_init.md): the `INIT` step, and how
the sequencer moves after a micro-operation. -/

namespace Sys2Proof.Machine

/-- Byte `j` of an IV word: `w[8j+7:8j]`, byte 0 the least significant (R55). -/
def ivByte (w : Word32) (j : Nat) : Byte := w.extractLsb' (8 * j) 8

/-- The lanes `INIT` leaves (R100): lanes 0 to 3 are the bytes of `iv3`, 4 to 7 of `iv2`, 8 to 11 of `iv1`, 12 to 15 of
`iv0`. -/
def initLanes (iv : Vector Word32 4) : Vector Byte 16 :=
  Vector.ofFn fun l =>
    if l.val < 4 then ivByte iv[3] l.val
    else if l.val < 8 then ivByte iv[2] (l.val - 4)
    else if l.val < 12 then ivByte iv[1] (l.val - 8)
    else ivByte iv[0] (l.val - 12)

/-- The start of a row: `k <- 0`, `i <- 0`, and `phase <- RF` if the table has an entry, else `MIX` (R151, R155). -/
def State.startRow (s : State) : State :=
  { s with k := 0, i := 0, phase := if 0 < s.rfLen then .rf else .mix }

/-- The `INIT` step (R100, R151). -/
def State.initStep (s : State) : State :=
  { s with lanes := initLanes s.iv, carry := true, outer := 0, row := 0, z := 0 }.startRow

/-- After a round-function micro-operation (R153). -/
def State.afterRf (s : State) : State :=
  if s.k.toNat + 1 < s.rfLen then { s with k := s.k + 1 }
  else { s with k := 0, i := 0, phase := .mix }

/-- The end of an invocation (R156): the engine is idle and `STATUS.DONE` is set. The counters, the lanes, the carry and
the cursor keep their last values. -/
def State.endOfInvocation (s : State) : State := (s.writePhase .idle).writeDone true

/-- The end of a row (R155): the next row; or, after row 3, the next outer round with the cursor reset; or the end of
the invocation. -/
def State.endOfRow (s : State) : State :=
  if s.row.toNat < 3 then { s with row := s.row + 1 }.startRow
  else if s.outer.toNat < 7 then { s with outer := s.outer + 1, row := 0, z := 0 }.startRow
  else s.endOfInvocation

/-- After a mixer micro-operation (R154). -/
def State.afterMix (s : State) : State :=
  if s.i.toNat < 15 then { s with i := s.i + 1 } else s.endOfRow

end Sys2Proof.Machine
end

