-- ==== Sys2Proof/Machine/HostPort.lean ====
section
/-! DEFINITION. The host port (spec/20_memory.md, spec/44_host_commands.md): the register window, the legal accesses,
what a read answers and what a write does, idle and busy. -/

namespace Sys2Proof.Machine

/-- The number of bytes of an access, none for the reserved size 3 (R52). -/
def sizeBytes (size : BitVec 2) : Option Nat :=
  match size.toNat with
  | 0 => some 1
  | 1 => some 2
  | 2 => some 4
  | _ => none

/-- The legal accesses (R58): 4 bytes, aligned, in the register part; 1, 2 or 4 bytes, naturally aligned, in the buffer
part. -/
def HostAccess.legal (a : HostAccess) : Bool :=
  match sizeBytes a.size with
  | none => false
  | some n =>
    if a.addr.toNat < 0x40 then decide (n = 4 ∧ a.addr.toNat % 4 = 0)
    else decide (a.addr.toNat % n = 0)

/-- What an offset of the register window names (R53). -/
inductive Target where
  | ctrl
  | status
  | config
  | iv (n : Fin 4)
  | reserved
  | buf (z : BitVec 6)
deriving DecidableEq, Repr

/-- The register window's map (R53). The buffer part is offsets 0x40 to 0x7F, byte `addr - 0x40`. -/
def target (addr : BitVec 7) : Target :=
  if 0x40 ≤ addr.toNat then .buf (BitVec.ofNat 6 (addr.toNat - 0x40))
  else match addr.toNat / 4 with
    | 0 => .ctrl
    | 1 => .status
    | 2 => .config
    | 4 => .iv 0
    | 5 => .iv 1
    | 6 => .iv 2
    | 7 => .iv 3
    | _ => .reserved

/-- The offset in the window of an address in the host's address space, none outside the window (R53). -/
def windowOffset? (busAddr : Nat) : Option (BitVec 7) :=
  if Config.danceBase ≤ busAddr ∧ busAddr < Config.danceBase + 128 then
    some (BitVec.ofNat 7 (busAddr - Config.danceBase))
  else none

/-- The low `n` bytes of a word, the bits above them 0: what `rdata` shows of an `n`-byte access (R52). -/
def lowBytes (n : Nat) (w : Word32) : Word32 := (w.setWidth (8 * n)).setWidth 32

/-- `n` buffer bytes from `z` on, little-endian: the byte at `z + j` is data bits `[8j+7:8j]` (R56). -/
def State.bufReadLE (s : State) (z : BitVec 6) : Nat → Word32
  | 0 => 0
  | n + 1 => (s.bufRead z).setWidth 32 ||| (s.bufReadLE (z + 1) n <<< 8)

/-- Write the low `n` bytes of a word to the buffer from `z` on, little-endian (R56, R61). -/
def State.bufWriteLE (s : State) (z : BitVec 6) : Nat → Word32 → State
  | 0, _ => s
  | n + 1, w => (s.bufWrite z (w.setWidth 8)).bufWriteLE (z + 1) n (w >>> 8)

/-- The value of CTRL as read: `IE` in bit 1, every other bit 0 (R35, R174). -/
def State.ctrlWord (s : State) : Word32 := (BitVec.ofBool s.ie ++ 0#1).setWidth 32

/-- The value of STATUS as read: `ACCERR ++ DONE ++ BUSY` (R36, R174). -/
def State.statusWord (s : State) : Word32 :=
  (BitVec.ofBool s.accerr ++ BitVec.ofBool s.done ++ BitVec.ofBool s.busy).setWidth 32

/-- The value of CONFIG as read: `RF_VARIANT ++ RF_LEN` (R37, R174). -/
def State.configWord (s : State) : Word32 :=
  (s.rfVariant.code ++ BitVec.ofNat 8 s.rfLen).setWidth 32

/-- What a legal read of `n` bytes returns where R61 applies. -/
def State.readTarget (s : State) (n : Nat) : Target → Word32
  | .ctrl => s.ctrlWord
  | .status => s.statusWord
  | .config => s.configWord
  | .iv w => s.iv[w]
  | .reserved => 0
  | .buf z => s.bufReadLE z n

/-- A read that returns `draw()`, any value of the access's width (R62, R64; for the reserved size, of 32 bits). -/
def State.drawRdata (s : State) (size : BitVec 2) : State :=
  { s with rdata := some (lowBytes ((sizeBytes size).getD 4) (Config.drawRead s.draws)), draws := s.draws + 1 }

/-- A write to CTRL (R170 to R172). START is refused with an access error while the engine is busy. -/
def State.writeCtrl (s : State) (w : Word32) : State :=
  let s₁ := s.writeIe (w.getLsbD 1)
  if w.getLsbD 0 then
    if s.busy then s₁.raiseAccessError
    else (s₁.writeDone false).writePhase .init
  else s₁

/-- A write to STATUS: a 1 clears DONE (bit 1) or ACCERR (bit 2), every other bit is ignored (R173). -/
def State.writeStatus (s : State) (w : Word32) : State :=
  let s₁ := if w.getLsbD 1 then s.writeDone false else s
  if w.getLsbD 2 then s₁.writeAccerr false else s₁

/-- A legal read (R61, R62): a buffer read while busy returns any value and is an access error. -/
def State.hostRead (s : State) (size : BitVec 2) (n : Nat) : Target → State
  | .buf z =>
    if s.busy then (s.drawRdata size).raiseAccessError
    else s.putRdata (s.readTarget n (.buf z))
  | t => s.putRdata (s.readTarget n t)

/-- A legal write (R61, R62): an IV or buffer write while busy has no effect but the access error. -/
def State.hostWrite (s : State) (n : Nat) (w : Word32) : Target → State
  | .ctrl => s.writeCtrl w
  | .status => s.writeStatus w
  | .config => s
  | .reserved => s
  | .iv m => if s.busy then s.raiseAccessError else s.writeIv m w
  | .buf z => if s.busy then s.raiseAccessError else s.bufWriteLE z n w

/-- An access that breaks R58 (R64): the access error; a read returns any value, a write changes nothing else. -/
def State.badAccess (s : State) (a : HostAccess) : State :=
  if a.wr then s.raiseAccessError else (s.drawRdata a.size).raiseAccessError

/-- One host access (R58 to R64), atomic (R59). -/
def State.hostAccess (s : State) (a : HostAccess) : State :=
  if a.legal then
    if a.wr then s.hostWrite ((sizeBytes a.size).getD 0) a.wdata (target a.addr)
    else s.hostRead a.size ((sizeBytes a.size).getD 0) (target a.addr)
  else s.badAccess a

end Sys2Proof.Machine
end

