-- ==== Sys2Proof/Machine/Engine.lean ====
section
/-! DEFINITION. One engine step (R27, R152) and one input of the interleaving (R66, R220). -/

namespace Sys2Proof.Machine

/-- Change the next state of an outcome, keep a stop. -/
def andThen (o : Host.Outcome State Fault Refusal) (f : State → State) : Host.Outcome State Fault Refusal :=
  match o with
  | .next s => .next (f s)
  | .fault r => .fault r
  | .refused r => .refused r

/-- The next round-function micro-operation, `RF_TABLE[k]` (R27), or why there is none (R84, R86). -/
def State.fetchRf (s : State) : Except Refusal Instr :=
  match rfProgram s.rfRom with
  | none => .error .illFormedRfRom
  | some t =>
    match t[s.k.toNat]? with
    | none => .error .noMicroOp
    | some ins => .ok ins

/-- The next mixer micro-operation, `MIX_ROM[i]` (R27), or why there is none (R84, R90). -/
def State.fetchMix (s : State) : Except Refusal Instr :=
  match (mixProgram s.mixRom).bind (·[s.i.toNat]?) with
  | none => .error .illFormedMixRom
  | some ins => .ok ins

/-- Run a fetched micro-operation, then move the sequencer (R153, R154). -/
def runMicroOp (fetched : Except Refusal Instr) (advance : State → State) (s : State) :
    Host.Outcome State Fault Refusal :=
  match fetched with
  | .error r => .refused r
  | .ok ins => andThen (exec ins s) advance

/-- The `INIT` action of R151. A model given an ill-formed ROM refuses to run it (R84, I4). -/
def runInit (s : State) : Host.Outcome State Fault Refusal :=
  if (rfProgram s.rfRom).isNone then .refused .illFormedRfRom
  else if (mixProgram s.mixRom).isNone then .refused .illFormedMixRom
  else .next s.initStep

/-- One engine step: exactly one action, chosen by the phase; in `IDLE` none, and all state is held (R152, R214). -/
def engineStep (s : State) : Host.Outcome State Fault Refusal :=
  match s.phase with
  | .idle => .next s
  | .init => runInit s
  | .rf => runMicroOp s.fetchRf State.afterRf s
  | .mix => runMicroOp s.fetchMix State.afterMix s

/-- One step of the interleaving (R66): the engine's, a host access, or a cycle with `rst` sampled 1, in which neither
the engine nor a presented access does anything (R220). -/
def takeInput (e : Input) (s : State) : Host.Outcome State Fault Refusal :=
  match e with
  | .engine => engineStep s
  | .access a => .next (s.hostAccess a)
  | .rst _ => .next s.applyReset

/-- A step begins: `rdata` shows nothing until this step is a host read (R52), and the rest of the inputs waits. -/
def State.beginStep (s : State) (rest : List Input) : State := { s with rdata := none, inputs := rest }

end Sys2Proof.Machine
end

