-- ==== Sys2Proof/Machine/Step.lean ====
section
/-! DEFINITION. The machine's step: the next input of the interleaving, or the engine's own step when no input waits
(R66; the engine, once started, takes every step, R230). And where a micro-operation word is placed so that the next step
runs it. -/

namespace Sys2Proof.Machine

/-- One step of the machine. -/
def step (s : State) : Host.Outcome State Fault Refusal :=
  match s.inputs with
  | [] => engineStep (s.beginStep [])
  | e :: rest => takeInput e (s.beginStep rest)

/-- The state in which the very next step fetches and runs the micro-operation word `w`. A word of a mixer format (bit 11
set) stands in the mixer ROM at the entry its `A` field names, the only place R90 admits it; any other word is the
round-function ROM's one entry. No input waits. -/
def State.withFetchWord (s : State) (_nbits w : Nat) : State :=
  let u : MicroWord := BitVec.ofNat 12 w
  if u.getLsbD 11 then
    { s with phase := .mix, i := aField u, mixRom := s.mixRom.set (laneOf (aField u)) u, inputs := [] }
  else
    { s with phase := .rf, k := 0, rfRom := [u], inputs := [] }

end Sys2Proof.Machine
end

