-- ==== Sys2Proof/Machine/Assembler.lean ====
section
/-! DEFINITION. The assembler syntax (R92, R93): one micro-operation per line, lanes `L0` to `L15` or `r8` to `r23`, any
case, `;` to the end of the line a comment. What R92 leaves open (blanks, the case of the buffer operand, the printing) is
the model's choice: notes/assumptions/13.md. -/

namespace Sys2Proof.Machine

/-- The lane's name `Ln` (R92), in lower case. -/
def laneName (l : LaneIx) : List Char := 'l' :: (Nat.toDigits 10 l.val)

/-- The lane's alias `r(8+n)` (R20, R92). -/
def laneAlias (l : LaneIx) : List Char := 'r' :: (Nat.toDigits 10 (l.val + 8))

/-- A character in lower case: mnemonics and lane names are case-insensitive (R92). -/
def lowerChar (c : Char) : Char :=
  if 65 ≤ c.toNat ∧ c.toNat ≤ 90 then Char.ofNat (c.toNat + 32) else c

/-- A line without its comment (R92). -/
def stripComment (cs : List Char) : List Char := cs.takeWhile (· != ';')

/-- Put a finished token before the ones that follow it. -/
def flushToken (tok : List Char) (rest : List (List Char)) : List (List Char) :=
  if tok = [] then rest else tok :: rest

/-- The tokens of a line: blanks separate them, a comma is a token of its own. `tok` is the token being read. -/
def tokens (tok : List Char) : List Char → List (List Char)
  | [] => flushToken tok []
  | c :: cs =>
    if c = ' ' ∨ c = '\t' then flushToken tok (tokens [] cs)
    else if c = ',' then flushToken tok ([','] :: tokens [] cs)
    else tokens (tok ++ [lowerChar c]) cs

/-- The lane a token names, by name or alias (R92). -/
def laneToken? (tok : List Char) : Option LaneIx :=
  (List.finRange 16).find? fun l => tok == laneName l || tok == laneAlias l

/-- The buffer operand's token `[Z+]` (R92), in lower case as `tokens` leaves it. R92 says of mnemonics and lane names
only that they are case-insensitive; that `[z+]` is read as `[Z+]` is a DESIGN CHOICE (notes/assumptions/13.md). -/
def cursorToken : List Char := ['[', 'z', '+', ']']

/-- What a line of assembly is. -/
inductive AsmLine where
  /-- Nothing but blanks and a comment. -/
  | blank
  /-- One micro-operation. -/
  | op (i : Instr)
  /-- Not of the syntax. -/
  | bad
deriving DecidableEq, Repr

/-- A line from the lane it may name. -/
def asmOp (i : Option Instr) : AsmLine := (i.map AsmLine.op).getD .bad

/-- A line with two operands (R92). -/
def asmTwo (m a b : List Char) : AsmLine :=
  if b = cursorToken then
    if m = ['m', 'a', 'd', 'c'] then asmOp ((laneToken? a).map .madc)
    else if m = ['m', 's', 'b', 'c'] then asmOp ((laneToken? a).map .msbc)
    else if m = ['m', 'x', 'o', 'r'] then asmOp ((laneToken? a).map .mxor)
    else .bad
  else
    if m = ['a', 'd', 'c'] then asmOp ((laneToken? a).bind fun x => (laneToken? b).map (.adc x))
    else if m = ['x', 'o', 'r'] then asmOp ((laneToken? a).bind fun x => (laneToken? b).map (.xor x))
    else .bad

/-- The micro-operation of a line of assembly (R92). -/
def parseLine (cs : List Char) : AsmLine :=
  match tokens [] (stripComment cs) with
  | [] => .blank
  | [m, a] => if m = ['s', 'w', 'a', 'p'] then asmOp ((laneToken? a).map .swap) else .bad
  | [m, a, [','], b] => asmTwo m a b
  | _ => .bad

/-- The micro-operations of a text, one per line, in order; none if a line is not of the syntax (R92, R93). -/
def assemble : List (List Char) → Option (List Instr)
  | [] => some []
  | l :: ls =>
    match parseLine l with
    | .blank => assemble ls
    | .op i => (assemble ls).map (i :: ·)
    | .bad => none

/-- A line with a mnemonic and two operands. -/
def printTwo (m a b : List Char) : List Char := m ++ [' '] ++ a ++ [',', ' '] ++ b

/-- A micro-operation's line of assembly, in lower case (R92), its first lane written by `na` and its second by `nb`. -/
def printInstrAs (na nb : LaneIx → List Char) : Instr → List Char
  | .adc a b => printTwo ['a', 'd', 'c'] (na a) (nb b)
  | .xor a b => printTwo ['x', 'o', 'r'] (na a) (nb b)
  | .swap a => ['s', 'w', 'a', 'p', ' '] ++ na a
  | .madc a => printTwo ['m', 'a', 'd', 'c'] (na a) cursorToken
  | .msbc a => printTwo ['m', 's', 'b', 'c'] (na a) cursorToken
  | .mxor a => printTwo ['m', 'x', 'o', 'r'] (na a) cursorToken

/-- A micro-operation's line of assembly, in lower case, lanes by their names (R92). -/
def printInstr (i : Instr) : List Char := printInstrAs laneName laneName i

end Sys2Proof.Machine
end

