-- ==== Sys2Proof/Machine/HostProgram.lean ====
section
/-! DEFINITION. The host's bus primitives and the accesses of one call of the transform (R12, R176), as inputs the
machine can be given. -/

namespace Sys2Proof.Machine

/-- The port's size code of an `n`-byte access (R52). -/
def sizeCode (n : Nat) : BitVec 2 :=
  match n with
  | 1 => 0
  | 2 => 1
  | 4 => 2
  | _ => 3

/-- `MemWrite(addr, n, v)` (R12). -/
def memWrite (addr n : Nat) (v : Word32) : HostAccess :=
  { wr := true, addr := BitVec.ofNat 7 addr, size := sizeCode n, wdata := v }

/-- `MemRead(addr, n)` (R12). -/
def memRead (addr n : Nat) : HostAccess :=
  { wr := false, addr := BitVec.ofNat 7 addr, size := sizeCode n, wdata := 0 }

/-- `buffer[4m] | buffer[4m+1]<<8 | buffer[4m+2]<<16 | buffer[4m+3]<<24` (R176). -/
def bufWord (buf : Vector Byte 64) (m : Fin 16) : Word32 :=
  buf[4 * m.val + 3] ++ buf[4 * m.val + 2] ++ buf[4 * m.val + 1] ++ buf[4 * m.val]

/-- The four IV writes of a call (R176). -/
def ivWrites (iv : Vector Word32 4) : List HostAccess :=
  [memWrite 0x10 4 iv[0], memWrite 0x14 4 iv[1], memWrite 0x18 4 iv[2], memWrite 0x1C 4 iv[3]]

/-- The sixteen buffer writes of a call (R176). -/
def bufWrites (buf : Vector Byte 64) : List HostAccess :=
  (List.finRange 16).map fun m => memWrite (0x40 + 4 * m.val) 4 (bufWord buf m)

/-- The START write of a call, IE = 0 (R176). -/
def startWrite : HostAccess := memWrite 0x00 4 0x1

/-- Everything a call writes, START last (R176). -/
def callWrites (iv : Vector Word32 4) (buf : Vector Byte 64) : List HostAccess :=
  ivWrites iv ++ bufWrites buf ++ [startWrite]

/-- The write that clears DONE after a call (R176). -/
def clearDoneWrite : HostAccess := memWrite 0x04 4 0x2

/-- Accesses as inputs of the machine, in the host's issue order (R66). -/
def accesses (as : List HostAccess) : List Input := as.map .access

end Sys2Proof.Machine
end

