-- ==== Sys2Proof/Machine/Reference.lean ====
section
/-! DEFINITION. The transform as a mathematical function (R15, R150), written from the spec's pseudocode on data of its
own: it shares no operation with the engine's step, so that the two can be compared (R157). -/

namespace Sys2Proof.Machine

/-- What the reference function works on: lanes, carry, cursor and the 64 buffer bytes. -/
structure RefState where
  lanes : Vector Byte 16
  carry : Bool
  z : BitVec 6
  buf : Vector Byte 64
deriving DecidableEq, Repr

/-- The buffer byte at the cursor. -/
def RefState.byte (r : RefState) : Byte := r.buf[r.z.toFin]

/-- The mixer step's write-back (R130), with the new carry. -/
def RefState.mix (r : RefState) (a : LaneIx) (v : Byte) (c : Bool) : RefState :=
  { lanes := r.lanes.set a v, carry := c, z := r.z + 1, buf := r.buf.set r.z.toFin v }

/-- One micro-operation as R113 to R115 and R134 to R136 write it. -/
def refExec (ins : Instr) (r : RefState) : RefState :=
  match ins with
  | .adc a b =>
    let s := r.lanes[a].toNat + r.lanes[b].toNat + r.carry.toNat
    { r with lanes := r.lanes.set a (BitVec.ofNat 8 s), carry := decide (256 ≤ s) }
  | .xor a b => { r with lanes := r.lanes.set a (r.lanes[a] ^^^ r.lanes[b]) }
  | .swap a => { r with lanes := r.lanes.set a (r.lanes[a] <<< 4 ||| r.lanes[a] >>> 4) }
  | .madc a =>
    let s := r.lanes[a].toNat + r.byte.toNat + r.carry.toNat
    r.mix a (BitVec.ofNat 8 s) (decide (256 ≤ s))
  | .msbc a =>
    r.mix a (r.lanes[a] - r.byte - BitVec.ofNat 8 r.carry.toNat)
      (decide (r.lanes[a].toNat < r.byte.toNat + r.carry.toNat))
  | .mxor a => r.mix a (r.lanes[a] ^^^ r.byte) r.carry

/-- A sequence of micro-operations in index order: the spec's `fold(exec, …)` (R110). -/
def refRun (t : List Instr) (r : RefState) : RefState := t.foldl (fun r ins => refExec ins r) r

/-- The mixer's schedule: entry `i` works on lane `i` (R88). -/
def mixSchedule : List Instr :=
  [.madc 0, .msbc 1, .mxor 2, .madc 3, .madc 4, .msbc 5, .madc 6, .madc 7,
   .msbc 8, .mxor 9, .msbc 10, .mxor 11, .madc 12, .msbc 13, .madc 14, .msbc 15]

/-- One row: the round function once, then the state mixer once (R150). -/
def refRow (t : List Instr) (r : RefState) : RefState := refRun mixSchedule (refRun t r)

/-- One outer round: the cursor reset, then 4 rows (R150). -/
def refOuter (t : List Instr) (r : RefState) : RefState := (refRow t)^[4] { r with z := 0 }

/-- The lanes from the IV, in R101's closed form. -/
def refLanes (iv : Vector Word32 4) : Vector Byte 16 :=
  Vector.ofFn fun l => (iv[3 - l.val / 4]'(by omega) >>> (8 * (l.val % 4))).setWidth 8

/-- The transform with the carry set to `c` at lane initialisation: `c = 1` is the hardware's, `c = 0` is R104's
experiment. -/
def danceWithCarry (c : Bool) (t : List Instr) (buf : Vector Byte 64) (iv : Vector Word32 4) : Vector Byte 64 :=
  ((refOuter t)^[8] { lanes := refLanes iv, carry := c, z := 0, buf := buf }).buf

/-- `dance(RF_TABLE, BUF, IVW)` (R150). -/
def dance (t : List Instr) (buf : Vector Byte 64) (iv : Vector Word32 4) : Vector Byte 64 :=
  danceWithCarry true t buf iv

/-- The number of engine steps of an invocation with `n` table entries (R157). -/
def invocationSteps (n : Nat) : Nat := 1 + 32 * (n + 16)

end Sys2Proof.Machine
end

