-- ==== Sys2Proof/Safety.lean ====
section
/-! DEFINITION. What claims are stated in: the invariant of the engine, what two states share, and a run in which the
host breaks no rule. -/

namespace Sys2Proof.Machine

/-- Where the cursor and the counters stand in each phase (R26, R28, R132). -/
def State.PositionOk (s : State) : Prop :=
  match s.phase with
  | .idle => True
  | .init => True
  | .rf => s.k.toNat < s.rfLen ∧ s.z.toNat = 16 * s.row.toNat
  | .mix => s.z.toNat = 16 * s.row.toNat + s.i.toNat

/-- The invariant: the buffer in canonical form, both ROMs well-formed (R84, R86, R90), the sequencer and the cursor in
step (R26, R132), and DONE never set while an invocation runs (R36, R170, R207). -/
structure State.Inv (s : State) : Prop where
  bufWf : Memory.wf s.buf
  rfWf : (rfProgram s.rfRom).isSome = true
  mixWf : (mixProgram s.mixRom).isSome = true
  position : s.PositionOk
  doneIdle : s.done = true → s.phase = .idle

/-- Two states that agree on everything but the lanes, the carry, the cursor and the buffer: what a micro-operation may
change (R110, R130). -/
structure SameShell (s t : State) : Prop where
  phase : t.phase = s.phase
  outer : t.outer = s.outer
  row : t.row = s.row
  k : t.k = s.k
  i : t.i = s.i
  iv : t.iv = s.iv
  ie : t.ie = s.ie
  done : t.done = s.done
  accerr : t.accerr = s.accerr
  rfRom : t.rfRom = s.rfRom
  mixRom : t.mixRom = s.mixRom
  rfVariant : t.rfVariant = s.rfVariant
  rdata : t.rdata = s.rdata
  inputs : t.inputs = s.inputs
  draws : t.draws = s.draws
  bufDraw : t.bufDraw = s.bufDraw

/-- Two states that agree on what is hardwired: the ROMs and the variant (R37, R40). -/
structure SameBuild (s t : State) : Prop where
  rfRom : t.rfRom = s.rfRom
  mixRom : t.mixRom = s.mixRom
  rfVariant : t.rfVariant = s.rfVariant

/-- Two states that agree on what no host can reach directly: the lanes, the carry, the cursor and the counters
(R21, R29, R30). -/
structure SameHidden (s t : State) : Prop where
  lanes : t.lanes = s.lanes
  carry : t.carry = s.carry
  outer : t.outer = s.outer
  row : t.row = s.row
  k : t.k = s.k
  i : t.i = s.i
  z : t.z = s.z

/-- Every buffer byte reads the same in both states. -/
def SameBuffer (s t : State) : Prop := ∀ z : BitVec 6, t.bufRead z = s.bufRead z

/-- Every lane but `a` holds the same in both states. -/
def SameLanesBut (a : LaneIx) (s t : State) : Prop := ∀ l : LaneIx, l ≠ a → t.lanes[l] = s.lanes[l]

/-- Every buffer byte but the one at `z` reads the same in both states. -/
def SameBufferBut (z : BitVec 6) (s t : State) : Prop := ∀ y : BitVec 6, y ≠ z → t.bufRead y = s.bufRead y

/-- The machine after `n` steps from `s` is `t`, with no stop on the way. -/
def RunsTo : Nat → State → State → Prop
  | 0, s, t => s = t
  | n + 1, s, t => ∃ u, step s = .next u ∧ RunsTo n u t

/-- A safe run of `n` steps: it reaches a state, and no access error is recorded there (R202; the premise that
spec/92_eei_decisions.md D13 asks of a claim about a host program). -/
def SafeRun (n : Nat) (s t : State) : Prop := RunsTo n s t ∧ t.accerr = false

/-- `n` engine steps from `s` (the engine's own, with no host step between them) lead to `t`. -/
def engineRun : Nat → State → Host.Outcome State Fault Refusal
  | 0, s => .next s
  | n + 1, s =>
    match engineStep s with
    | .next t => engineRun n t
    | .fault r => .fault r
    | .refused r => .refused r

/-- The cursors at which the mixer micro-operations of `n` engine steps write the buffer (R51: each writes exactly the
byte at the cursor before its increment). -/
def bufferWrites : Nat → State → List (BitVec 6)
  | 0, _ => []
  | n + 1, s =>
    match engineStep s with
    | .next t => if s.phase = .mix then s.z :: bufferWrites n t else bufferWrites n t
    | .fault _ => []
    | .refused _ => []

/-- The part of a state the reference function works on. -/
def State.view (s : State) : RefState := { lanes := s.lanes, carry := s.carry, z := s.z, buf := s.buffer }

end Sys2Proof.Machine
end

