-- ==== Sys2Proof/Certificates/Slice0/Obligations.lean ====
section
/-! DEFINITION. The statements about the engine that are to be proved, from the spec's numbered rules. Each name says what
it states and each docstring which rule it formalises. -/

open Sys2Proof Sys2Proof.Machine

/-! ## The six micro-operations: encoding, result, carry, frame, and that each completes in every state -/

/-- R113, whole: the encoding; the lane gets the low 8 bits of the exact sum, the carry its 9th bit, with `a = b` allowed
(then the carry is bit 7 of the old lane); nothing else changes; no exception. -/
def Obligations.AdcAddsLanesAndCarry : Prop :=
  ∀ (a b : LaneIx) (s : State),
    decode (0b0000#4 ++ BitVec.ofNat 4 a.val ++ BitVec.ofNat 4 b.val) = .ok (.adc a b) ∧
    ∃ t, exec (.adc a b) s = .next t ∧
      t.lanes[a] = BitVec.ofNat 8 (s.lanes[a].toNat + s.lanes[b].toNat + s.carry.toNat) ∧
      t.carry = decide (256 ≤ s.lanes[a].toNat + s.lanes[b].toNat + s.carry.toNat) ∧
      (a = b → t.carry = s.lanes[a].getLsbD 7) ∧
      SameLanesBut a s t ∧ t.z = s.z ∧ SameBuffer s t ∧ SameShell s t

/-- R114, whole: the encoding; the lane gets the exclusive or of the two lanes (0 when `a = b`, itself when `L[b]` is 0);
the carry and everything else is as before; no exception. -/
def Obligations.XorCombinesLanes : Prop :=
  ∀ (a b : LaneIx) (s : State),
    decode (0b0010#4 ++ BitVec.ofNat 4 a.val ++ BitVec.ofNat 4 b.val) = .ok (.xor a b) ∧
    ∃ t, exec (.xor a b) s = .next t ∧
      t.lanes[a] = s.lanes[a] ^^^ s.lanes[b] ∧
      (a = b → t.lanes[a] = 0) ∧ (s.lanes[b] = 0 → t.lanes[a] = s.lanes[a]) ∧
      t.carry = s.carry ∧ SameLanesBut a s t ∧ t.z = s.z ∧ SameBuffer s t ∧ SameShell s t

/-- R115, whole: the encoding; the lane's nibbles change places (a byte with equal nibbles stays, two swaps restore the
lane); the carry and everything else is as before; no exception. -/
def Obligations.SwapExchangesNibbles : Prop :=
  ∀ (a : LaneIx) (s : State),
    decode (0b0100#4 ++ BitVec.ofNat 4 a.val ++ 0b0000#4) = .ok (.swap a) ∧
    ∃ t, exec (.swap a) s = .next t ∧
      t.lanes[a] = s.lanes[a] <<< 4 ||| s.lanes[a] >>> 4 ∧
      (s.lanes[a].toNat / 16 = s.lanes[a].toNat % 16 → t.lanes[a] = s.lanes[a]) ∧
      (∃ u, exec (.swap a) t = .next u ∧ u.lanes[a] = s.lanes[a]) ∧
      t.carry = s.carry ∧ SameLanesBut a s t ∧ t.z = s.z ∧ SameBuffer s t ∧ SameShell s t

/-- R134 inside R130, whole: the encoding; the lane and the buffer byte at the cursor get the low 8 bits of the exact sum,
the carry its 9th bit, the cursor advances by 1 modulo 64; nothing else changes; no exception. -/
def Obligations.MadcAddsBufferByte : Prop :=
  ∀ (a : LaneIx) (s : State),
    decode (0b1000#4 ++ BitVec.ofNat 4 a.val ++ 0b0000#4) = .ok (.madc a) ∧
    ∃ t, exec (.madc a) s = .next t ∧
      t.lanes[a] = BitVec.ofNat 8 (s.lanes[a].toNat + (s.bufRead s.z).toNat + s.carry.toNat) ∧
      t.bufRead s.z = BitVec.ofNat 8 (s.lanes[a].toNat + (s.bufRead s.z).toNat + s.carry.toNat) ∧
      t.carry = decide (256 ≤ s.lanes[a].toNat + (s.bufRead s.z).toNat + s.carry.toNat) ∧
      t.z.toNat = (s.z.toNat + 1) % 64 ∧
      SameLanesBut a s t ∧ SameBufferBut s.z s t ∧ SameShell s t

/-- R135 inside R130, whole: the encoding; the lane and the buffer byte at the cursor get the exact difference modulo 256,
the carry cell is 1 exactly when the difference is negative, the cursor advances by 1 modulo 64; nothing else changes; no
exception. -/
def Obligations.MsbcSubtractsBufferByte : Prop :=
  ∀ (a : LaneIx) (s : State),
    decode (0b1010#4 ++ BitVec.ofNat 4 a.val ++ 0b0000#4) = .ok (.msbc a) ∧
    ∃ t, exec (.msbc a) s = .next t ∧
      t.lanes[a] = BitVec.ofInt 8 ((s.lanes[a].toNat : Int) - (s.bufRead s.z).toNat - s.carry.toNat) ∧
      t.bufRead s.z = BitVec.ofInt 8 ((s.lanes[a].toNat : Int) - (s.bufRead s.z).toNat - s.carry.toNat) ∧
      t.carry = decide ((s.lanes[a].toNat : Int) - (s.bufRead s.z).toNat - s.carry.toNat < 0) ∧
      t.z.toNat = (s.z.toNat + 1) % 64 ∧
      SameLanesBut a s t ∧ SameBufferBut s.z s t ∧ SameShell s t

/-- R136 inside R130, whole: the encoding; the lane and the buffer byte at the cursor get the exclusive or, the carry is as
before, the cursor advances by 1 modulo 64; nothing else changes; no exception. -/
def Obligations.MxorCombinesBufferByte : Prop :=
  ∀ (a : LaneIx) (s : State),
    decode (0b1100#4 ++ BitVec.ofNat 4 a.val ++ 0b0000#4) = .ok (.mxor a) ∧
    ∃ t, exec (.mxor a) s = .next t ∧
      t.lanes[a] = s.lanes[a] ^^^ s.bufRead s.z ∧ t.bufRead s.z = s.lanes[a] ^^^ s.bufRead s.z ∧
      t.carry = s.carry ∧ t.z.toNat = (s.z.toNat + 1) % 64 ∧
      SameLanesBut a s t ∧ SameBufferBut s.z s t ∧ SameShell s t

/-- R130: whichever format M micro-operation it is, the lane and the buffer byte receive the same value, exactly the byte
at the cursor is written, and the cursor advances by 1; the engine completes it from every state. -/
def Obligations.MixerWritesLaneAndBufferAlike : Prop :=
  ∀ (ins : Instr) (a : LaneIx) (s : State), ins.mixerLane? = some a →
    ∃ t, exec ins s = .next t ∧ t.bufRead s.z = t.lanes[a] ∧ t.z = s.z + 1 ∧
      SameLanesBut a s t ∧ SameBufferBut s.z s t ∧ SameShell s t

/-- R24: XOR, SWAP and MXOR neither write the carry nor read it (with another carry the next state differs in the carry
alone). -/
def Obligations.CarryUntouchedByXorSwapMxor : Prop :=
  ∀ (ins : Instr) (s : State) (c : Bool),
    (∀ a b, ins ≠ .adc a b) → (∀ a, ins ≠ .madc a) → (∀ a, ins ≠ .msbc a) →
    ∃ t, exec ins s = .next t ∧ t.carry = s.carry ∧ exec ins { s with carry := c } = .next { t with carry := c }

/-! ## The sequencer -/

/-- R151 with R100, R101 and R103: the `INIT` step, from every state in that phase whose ROMs are well-formed. Lane `l` is
byte `l mod 4` of `IVW[3 - l/4]`, the carry is 1, the counters and the cursor are 0, the round function is next (the mixer
when the table is empty), and nothing else changes. -/
def Obligations.InitLoadsLanesAndCarry : Prop :=
  ∀ s : State, s.phase = .init → (rfProgram s.rfRom).isSome = true → (mixProgram s.mixRom).isSome = true →
    ∃ t, engineStep s = .next t ∧
      (∀ l : Fin 16, t.lanes[l] = (s.iv[3 - l.val / 4]'(by omega)).extractLsb' (8 * (l.val % 4)) 8) ∧
      t.carry = true ∧ t.outer = 0 ∧ t.row = 0 ∧ t.z = 0 ∧ t.k = 0 ∧ t.i = 0 ∧
      t.phase = (if 0 < s.rfRom.length then .rf else .mix) ∧
      SameBuffer s t ∧ SameBuild s t ∧ t.iv = s.iv ∧ t.ie = s.ie ∧ t.done = s.done ∧ t.accerr = s.accerr ∧
      t.rdata = s.rdata ∧ t.inputs = s.inputs ∧ t.draws = s.draws ∧ t.bufDraw = s.bufDraw

/-- R153: a round-function step runs `RF_TABLE[k]`, then moves to `k + 1`, or after the last entry to the mixer. -/
def Obligations.RoundStepAdvancesK : Prop :=
  ∀ (s : State) (p : List Instr) (ins : Instr), s.phase = .rf → rfProgram s.rfRom = some p →
    p[s.k.toNat]? = some ins →
    ∃ u, exec ins s = .next u ∧
      (s.k.toNat + 1 < p.length → engineStep s = .next { u with k := BitVec.ofNat 8 (s.k.toNat + 1) }) ∧
      (s.k.toNat + 1 = p.length → engineStep s = .next { u with k := 0, i := 0, phase := .mix })

/-- R154: a mixer step runs `MIX_ROM[i]`, then moves to `i + 1` when `i < 15`. -/
def Obligations.MixerStepAdvancesI : Prop :=
  ∀ (s : State) (p : List Instr) (ins : Instr), s.phase = .mix → mixProgram s.mixRom = some p →
    p[s.i.toNat]? = some ins → s.i.toNat < 15 →
    ∃ u, exec ins s = .next u ∧ engineStep s = .next { u with i := BitVec.ofNat 4 (s.i.toNat + 1) }

/-- R155: after `MIX_ROM[15]` the next row starts, with the cursor as the mixer left it; after row 3 of an outer round
before the last, the next outer round with the cursor at 0; after row 3 of outer round 7 the invocation ends. A cursor in
step with the sequencer (R132) is then already `16 * (row + 1)`, and already 0 at the reset. That `outer`, `row`, `k` and
`i` keep their last values at the end of the invocation is the model's choice (DEDUCED: notes/assumptions/12.md). -/
def Obligations.EndOfRowStartsNextRowOrRound : Prop :=
  ∀ (s : State) (p : List Instr) (ins : Instr), s.phase = .mix → mixProgram s.mixRom = some p →
    p[15]? = some ins → s.i = 15 →
    ∃ u, exec ins s = .next u ∧
      (s.row.toNat < 3 → engineStep s = .next { u with
        row := BitVec.ofNat 2 (s.row.toNat + 1), k := 0, i := 0,
        phase := if 0 < s.rfRom.length then .rf else .mix }) ∧
      (s.row = 3 → s.outer.toNat < 7 → engineStep s = .next { u with
        outer := BitVec.ofNat 3 (s.outer.toNat + 1), row := 0, z := 0, k := 0, i := 0,
        phase := if 0 < s.rfRom.length then .rf else .mix }) ∧
      (s.row = 3 → s.outer = 7 → engineStep s = .next { u with phase := .idle, done := true }) ∧
      (s.z.toNat = 16 * s.row.toNat + 15 → u.z.toNat = 16 * (s.row.toNat + 1) % 64)

/-- R156: after the last mixer step of outer round 7, row 3, in the same step, the engine is idle and DONE is set; the
lanes, the carry and the cursor keep their last values. That `outer`, `row`, `k` and `i` keep theirs, which the equality
says too, is the model's choice (DEDUCED: notes/assumptions/12.md). -/
def Obligations.LastMixerStepEndsInvocation : Prop :=
  ∀ (s : State) (p : List Instr) (ins : Instr), s.phase = .mix → mixProgram s.mixRom = some p →
    p[15]? = some ins → s.i = 15 → s.row = 3 → s.outer = 7 →
    ∃ u, exec ins s = .next u ∧ engineStep s = .next { u with phase := .idle, done := true } ∧
      ({ u with phase := .idle, done := true } : State).busy = false

/-- R214: in `IDLE` the engine takes no step and all state is held. -/
def Obligations.IdleEngineHoldsAllState : Prop :=
  ∀ s : State, s.phase = .idle → engineStep s = .next s

/-- R66: one step of the machine is the next input of the interleaving (an engine step, one host access, or `rst`), in
order, or the engine's own step when none waits. That `rdata` is invalid until a host read is R52's; that the engine steps
when no input waits is the model's form of R230's fairness (notes/assumptions/3.md). -/
def Obligations.StepTakesTheNextInput : Prop :=
  ∀ s : State,
    (s.inputs = [] → step s = engineStep { s with rdata := none }) ∧
    ∀ e rest, s.inputs = e :: rest →
      (e = .engine → step s = engineStep { s with rdata := none, inputs := rest }) ∧
      (∀ a, e = .access a → step s = .next (State.hostAccess { s with rdata := none, inputs := rest } a)) ∧
      (∀ p, e = .rst p → step s = .next (State.applyReset { s with rdata := none, inputs := rest }))

/-- R27: when no input waits and the word the sequencer points at decodes to `ins`, a step of the machine is `exec ins`
followed by the sequencer's move; in `RF` the word is `RF_TABLE[k]`, in `MIX` it is `MIX_ROM[i]`. Both ROMs are
well-formed. -/
def Obligations.StepRunsTheDecodedMicroOp : Prop :=
  ∀ (s : State) (ins : Instr), s.inputs = [] → (rfProgram s.rfRom).isSome = true → (mixProgram s.mixRom).isSome = true →
    (s.phase = .rf → ∀ u, s.rfRom[s.k.toNat]? = some u → decode u = .ok ins →
      ∃ t, exec ins { s with rdata := none } = .next t ∧ step s = .next t.afterRf) ∧
    (s.phase = .mix → decode s.mixRom[s.i.toFin] = .ok ins →
      ∃ t, exec ins { s with rdata := none } = .next t ∧ step s = .next t.afterMix)

/-! ## The host port -/

/-- R58: the legal host accesses, as the rule lists them; any other is an access error; a legal access never crosses from
the register part into the buffer part. -/
def Obligations.LegalAccessesAreTheListedOnes : Prop :=
  ∀ a : HostAccess,
    (a.legal = true ↔
      (a.addr.toNat < 0x40 ∧ a.size = 2 ∧ a.addr.toNat % 4 = 0) ∨
      (0x40 ≤ a.addr.toNat ∧
        (a.size = 0 ∨ (a.size = 1 ∧ a.addr.toNat % 2 = 0) ∨ (a.size = 2 ∧ a.addr.toNat % 4 = 0)))) ∧
    (a.legal = false → ∀ s : State, (s.hostAccess a).accerr = true) ∧
    (a.legal = true → a.addr.toNat < 0x40 → a.addr.toNat + 2 ^ a.size.toNat ≤ 0x40)

/-- R53: what each offset of the window names. -/
def Obligations.RegisterWindowMap : Prop :=
  target 0x00 = .ctrl ∧ target 0x04 = .status ∧ target 0x08 = .config ∧
  target 0x10 = .iv 0 ∧ target 0x14 = .iv 1 ∧ target 0x18 = .iv 2 ∧ target 0x1C = .iv 3 ∧
  (∀ addr : BitVec 7, (0x0C ≤ addr.toNat ∧ addr.toNat < 0x10) ∨ (0x20 ≤ addr.toNat ∧ addr.toNat < 0x40) →
    target addr = .reserved) ∧
  (∀ z : BitVec 6, target (BitVec.ofNat 7 (0x40 + z.toNat)) = .buf z)

/-- R170: START while the engine is not busy. -/
def Obligations.StartWhenIdle : Prop :=
  ∀ (s : State) (w : Word32), s.busy = false → w.getLsbD 0 = true →
    s.hostAccess (memWrite 0x00 4 w) = { s with ie := w.getLsbD 1, done := false, phase := .init } ∧
    (s.hostAccess (memWrite 0x00 4 w)).busy = true ∧ (s.hostAccess (memWrite 0x00 4 w)).irq = false

/-- R171: START while busy writes IE and raises the access error; the invocation continues unchanged. -/
def Obligations.StartWhileBusyIsRefused : Prop :=
  ∀ (s : State) (w : Word32), s.busy = true → w.getLsbD 0 = true →
    s.hostAccess (memWrite 0x00 4 w) = { s with ie := w.getLsbD 1, accerr := true }

/-- R172: a write to CTRL with bit 0 clear writes IE and nothing else, busy or not. -/
def Obligations.CtrlWriteWithoutStart : Prop :=
  ∀ (s : State) (w : Word32), w.getLsbD 0 = false →
    s.hostAccess (memWrite 0x00 4 w) = { s with ie := w.getLsbD 1 }

/-- R173: a write to STATUS clears DONE and ACCERR where the data has a 1, and nothing else, busy or not. -/
def Obligations.StatusWriteOneClears : Prop :=
  ∀ (s : State) (w : Word32),
    s.hostAccess (memWrite 0x04 4 w) =
      { s with done := s.done && !w.getLsbD 1, accerr := s.accerr && !w.getLsbD 2 }

/-- R174 (with the layouts of R35 to R37): what reads of CTRL, STATUS and CONFIG return, busy or not; a read changes only
the port `rdata`. -/
def Obligations.ControlRegisterReads : Prop :=
  ∀ s : State,
    s.hostAccess (memRead 0x00 4) = { s with rdata := some (BitVec.ofNat 32 (2 * s.ie.toNat)) } ∧
    s.hostAccess (memRead 0x04 4) =
      { s with rdata := some (BitVec.ofNat 32 (4 * s.accerr.toNat + 2 * s.done.toNat + s.busy.toNat)) } ∧
    (s.rfRom.length ≤ 255 →
      s.hostAccess (memRead 0x08 4) =
        { s with rdata := some (BitVec.ofNat 32 (256 * s.rfVariant.code.toNat + s.rfRom.length)) })

/-- R31, R61 and R62: an IV register reads as it stands, busy or not, and takes a write while the engine is not busy. -/
def Obligations.IvRegisterAccess : Prop :=
  ∀ (s : State) (n : Fin 4) (w : Word32),
    s.hostAccess (memRead (0x10 + 4 * n.val) 4) = { s with rdata := some s.iv[n] } ∧
    (s.busy = false → s.hostAccess (memWrite (0x10 + 4 * n.val) 4 w) = { s with iv := s.iv.set n w }) ∧
    (s.busy = true → s.hostAccess (memWrite (0x10 + 4 * n.val) 4 w) = { s with accerr := true })

/-- R56, reading: an idle, legal read of `n` buffer bytes moves byte `a + j` to data bits `[8j+7:8j]`, the bits above the
access read 0 (R52), and nothing but `rdata` changes; a 4-byte read returns the word R56 writes out. -/
def Obligations.BufferReadIsLittleEndian : Prop :=
  ∀ (s : State) (addr n : Nat), s.busy = false → n ∈ [1, 2, 4] → 0x40 ≤ addr → addr < 0x80 → addr % n = 0 →
    ∃ w : Word32, s.hostAccess (memRead addr n) = { s with rdata := some w } ∧
      (∀ j < n, w.extractLsb' (8 * j) 8 = s.bufRead (BitVec.ofNat 6 (addr - 0x40 + j))) ∧
      w.toNat < 2 ^ (8 * n) ∧
      ∀ m : Fin 16, addr = 0x40 + 4 * m.val → n = 4 → w = bufWord s.buffer m

/-- R61 and R56, writing: an idle, legal write of `n` buffer bytes stores data bits `[8j+7:8j]` at byte `a + j`; every
other byte, and everything else, is as before. -/
def Obligations.BufferWriteIsLittleEndian : Prop :=
  ∀ (s : State) (addr n : Nat) (w : Word32), s.busy = false → n ∈ [1, 2, 4] → 0x40 ≤ addr → addr < 0x80 →
    addr % n = 0 →
    ∃ t, s.hostAccess (memWrite addr n w) = t ∧
      (∀ j < n, t.bufRead (BitVec.ofNat 6 (addr - 0x40 + j)) = w.extractLsb' (8 * j) 8) ∧
      (∀ y : BitVec 6, (y.toNat + 0x40 < addr ∨ addr + n ≤ y.toNat + 0x40) → t.bufRead y = s.bufRead y) ∧
      t.lanes = s.lanes ∧ t.carry = s.carry ∧ t.z = s.z ∧ SameShell s t

/-- R57: a 1-byte write to the buffer followed by a 4-byte read of the word that holds it returns the byte in its place;
the registers admit no access but a 4-byte one. -/
def Obligations.ByteWriteSeenByWordRead : Prop :=
  ∀ (s : State) (z : BitVec 6) (v : Word32), s.busy = false →
    ∃ w : Word32,
      ((s.hostAccess (memWrite (0x40 + z.toNat) 1 v)).hostAccess
        (memRead (0x40 + 4 * (z.toNat / 4)) 4)).rdata = some w ∧
      w.extractLsb' (8 * (z.toNat % 4)) 8 = v.setWidth 8 ∧
      ∀ a : HostAccess, a.addr.toNat < 0x40 → a.size ≠ 2 → a.legal = false

/-- R62: a legal access while the engine is busy. CTRL's and STATUS's writes are R171 to R173. The count of draws, which a
buffer read changes, is the model's own (DESIGN CHOICE: notes/assumptions/1.md); that a refused START writes IE is the
model's reading of R171 and R62 beside R64 (DEDUCED: notes/assumptions/9.md). -/
def Obligations.AccessWhileBusy : Prop :=
  ∀ (s : State) (a : HostAccess), s.busy = true → a.legal = true →
    (a.wr = false → (∀ z, target a.addr ≠ .buf z) →
      s.hostAccess a = { s with rdata := some (s.readTarget 4 (target a.addr)) }) ∧
    (a.wr = false → ∀ z, target a.addr = .buf z →
      ∃ v, s.hostAccess a = { s with accerr := true, rdata := some v, draws := s.draws + 1 }) ∧
    (a.wr = true → (∃ n, target a.addr = .iv n) ∨ (∃ z, target a.addr = .buf z) →
      s.hostAccess a = { s with accerr := true }) ∧
    (a.wr = true → target a.addr = .ctrl →
      s.hostAccess a = { s with ie := a.wdata.getLsbD 1, accerr := s.accerr || a.wdata.getLsbD 0 }) ∧
    (a.wr = true → target a.addr = .status →
      s.hostAccess a =
        { s with done := s.done && !a.wdata.getLsbD 1, accerr := s.accerr && !a.wdata.getLsbD 2 }) ∧
    (a.wr = true → target a.addr = .config ∨ target a.addr = .reserved → s.hostAccess a = s)

/-- R63: reserved offsets and reserved bits read as 0 and ignore writes, with no access error. -/
def Obligations.ReservedReadsZeroIgnoresWrites : Prop :=
  ∀ s : State,
    (∀ a : HostAccess, a.legal = true →
      (0x0C ≤ a.addr.toNat ∧ a.addr.toNat < 0x10) ∨ (0x20 ≤ a.addr.toNat ∧ a.addr.toNat < 0x40) →
      s.hostAccess a = if a.wr then s else { s with rdata := some 0 }) ∧
    (∀ w : Word32, s.hostAccess (memWrite 0x08 4 w) = s ∧
      s.hostAccess (memWrite 0x00 4 w) = s.hostAccess (memWrite 0x00 4 (w &&& 3)) ∧
      s.hostAccess (memWrite 0x04 4 w) = s.hostAccess (memWrite 0x04 4 (w &&& 6))) ∧
    s.ctrlWord >>> 2 = 0 ∧ s.statusWord >>> 3 = 0 ∧ s.configWord >>> 10 = 0

/-- R64, its R58 part: an access that breaks R58 sets ACCERR; a write changes nothing else, a read returns some value, a
free one. That this value is below 2^8 or 2^16 for the narrow sizes is the model's choice (DEDUCED:
notes/assumptions/8.md), and the count of draws, the one other field that a read changes, is the model's own
(DESIGN CHOICE: notes/assumptions/1.md). -/
def Obligations.IllegalAccessOnlySetsAccerr : Prop :=
  ∀ (s : State) (a : HostAccess), a.legal = false →
    (a.wr = true → s.hostAccess a = { s with accerr := true }) ∧
    (a.wr = false → ∃ v : Word32,
      s.hostAccess a = { s with accerr := true, rdata := some v, draws := s.draws + 1 } ∧
      (a.size = 0 → v.toNat < 2 ^ 8) ∧ (a.size = 1 → v.toNat < 2 ^ 16))

/-- R21, R29, R30 and R201: no host access changes a lane, the carry, the cursor or a counter; one made while the engine
is busy, or one that breaks R58, changes neither the phase, nor an IV register, nor a buffer byte. -/
def Obligations.HostNeverReachesTheEngine : Prop :=
  ∀ (s : State) (a : HostAccess),
    SameHidden s (s.hostAccess a) ∧
    (s.busy = true ∨ a.legal = false →
      (s.hostAccess a).phase = s.phase ∧ (s.hostAccess a).iv = s.iv ∧ SameBuffer s (s.hostAccess a))

/-- R204: `irq` is `IE & DONE`; the write that clears DONE and a START each drop it; ACCERR does not drive it. -/
def Obligations.IrqIsEnabledDone : Prop :=
  ∀ s : State,
    (s.irq = true ↔ s.ie = true ∧ s.done = true) ∧
    (s.hostAccess (memWrite 0x04 4 0x2)).irq = false ∧
    (∀ w : Word32, s.busy = false → w.getLsbD 0 = true → (s.hostAccess (memWrite 0x00 4 w)).irq = false) ∧
    ∀ b : Bool, ({ s with accerr := b } : State).irq = s.irq

/-! ## Rules of the whole machine -/

/-- R202: once set, ACCERR stays set until the host writes 1 to it or the engine is reset. -/
def Obligations.AccerrIsSticky : Prop :=
  ∀ s t : State, step s = .next t → s.accerr = true → t.accerr = false →
    ∃ e rest, s.inputs = e :: rest ∧
      ((∃ p, e = .rst p) ∨
        ∃ a, e = .access a ∧ a.legal = true ∧ a.wr = true ∧ target a.addr = .status ∧ a.wdata.getLsbD 2 = true)

/-- R36: DONE is set only by the last mixer step of an invocation, and cleared only by a write of 1 to it, by START, or
by reset. -/
def Obligations.DoneChangesOnlyAsSpecified : Prop :=
  ∀ s t : State, step s = .next t →
    (s.done = false → t.done = true →
      s.phase = .mix ∧ s.i = 15 ∧ s.row = 3 ∧ s.outer = 7 ∧ t.phase = .idle) ∧
    (s.done = true → t.done = false →
      ∃ e rest, s.inputs = e :: rest ∧
        ((∃ p, e = .rst p) ∨
          ∃ a, e = .access a ∧ a.legal = true ∧ a.wr = true ∧
            ((target a.addr = .status ∧ a.wdata.getLsbD 1 = true) ∨
              (target a.addr = .ctrl ∧ a.wdata.getLsbD 0 = true ∧ s.busy = false))))

/-- R40 and R70: no step changes a ROM, or what `CONFIG` reads as. -/
def Obligations.RomsNeverChange : Prop :=
  ∀ s t : State, step s = .next t → SameBuild s t ∧ t.configWord = s.configWord

/-- R31 and R32: an IV register changes only by a legal host write to an IV register while the engine is not busy, or by
reset. -/
def Obligations.IvChangesOnlyByIdleHostWrite : Prop :=
  ∀ s t : State, step s = .next t → t.iv ≠ s.iv →
    ∃ e rest, s.inputs = e :: rest ∧
      ((∃ p, e = .rst p) ∨
        ∃ a n, e = .access a ∧ a.legal = true ∧ a.wr = true ∧ target a.addr = .iv n ∧ s.busy = false)

/-- R33, R51 and R62: a buffer byte changes only by a mixer step with the cursor at it, by a legal host write that covers
it while the engine is not busy, or by reset. -/
def Obligations.BufferByteChangesOnlyAsSpecified : Prop :=
  ∀ (s t : State) (z : BitVec 6), step s = .next t → t.bufRead z ≠ s.bufRead z →
    (s.phase = .mix ∧ s.z = z) ∨
    ∃ e rest, s.inputs = e :: rest ∧
      ((∃ p, e = .rst p) ∨
        ∃ a n y, e = .access a ∧ a.legal = true ∧ a.wr = true ∧ s.busy = false ∧ sizeBytes a.size = some n ∧
          target a.addr = .buf y ∧ y.toNat ≤ z.toNat ∧ z.toNat < y.toNat + n)

/-- R24 and R25: the carry changes only by `INIT`, which sets it to 1, by an ADC, MADC or MSBC, or by reset. -/
def Obligations.CarryChangesOnlyAsSpecified : Prop :=
  ∀ s t : State, step s = .next t → t.carry ≠ s.carry →
    (s.phase = .init ∧ t.carry = true) ∨
    (s.phase = .rf ∧ ∃ a b, s.fetchRf = .ok (.adc a b)) ∨
    (s.phase = .mix ∧ ∃ a, s.fetchMix = .ok (.madc a) ∨ s.fetchMix = .ok (.msbc a)) ∨
    ∃ p rest, s.inputs = .rst p :: rest

/-- R28 and R29: the cursor changes only by `INIT`, which sets it to 0, by a mixer step, which advances it by 1 modulo 64
(which also makes it 0 at the end of an outer round: 90_conflicts.md C2), or by reset. -/
def Obligations.CursorChangesOnlyAsSpecified : Prop :=
  ∀ s t : State, s.Inv → step s = .next t → t.z ≠ s.z →
    (s.phase = .init ∧ t.z = 0) ∨
    (s.phase = .mix ∧ t.z.toNat = (s.z.toNat + 1) % 64) ∨
    ∃ p rest, s.inputs = .rst p :: rest

/-! ## Reset -/

/-- R41, the values it gives (those it leaves unspecified are free: notes/assumptions/1.md), and `irq` after reset. -/
def Obligations.ResetLeavesIdleAndClear : Prop :=
  State.reset.phase = .idle ∧ State.reset.busy = false ∧ State.reset.ie = false ∧ State.reset.done = false ∧
    State.reset.accerr = false ∧ State.reset.irq = false ∧
    State.reset.rfRom = rfRomBuilt ∧ State.reset.mixRom = mixRomListing ∧ State.reset.rfVariant = Config.rfVariant

/-- R220, R221 and R42: `rst` brings every state, busy or not, to idle with IE, DONE and ACCERR clear; a presented access
has no effect; nothing of the old state survives but what is hardwired (two engines alike in that, with the same inputs
waiting and the same draws to come, are in the same state after it); every buffer byte reads as the value drawn at this
reset. That a draw is a constant applied to the model's own count `draws` is the model's choice (DESIGN CHOICE:
notes/assumptions/1.md), as are the waiting inputs in the state (DESIGN CHOICE: notes/assumptions/3.md). -/
def Obligations.ResetAbortsAndForgets : Prop :=
  (∀ (s : State) (p : Option HostAccess), ∃ t, takeInput (.rst p) s = .next t ∧
    t.phase = .idle ∧ t.ie = false ∧ t.done = false ∧ t.accerr = false ∧ t.irq = false ∧ SameBuild s t ∧
    ∀ z : BitVec 6, t.bufRead z = Config.drawBuf s.draws z.toNat) ∧
  (∀ (s t : State) (p q : Option HostAccess), SameBuild s t → t.inputs = s.inputs → t.draws = s.draws →
    takeInput (.rst p) s = takeInput (.rst q) t)

/-! ## Encodings and ROMs -/

/-- R82 and R83: the encoder and the decoder agree, for every micro-operation with every operand, and every word has at
most one meaning. -/
def Obligations.DecodeEncodeAgree : Prop :=
  (∀ i : Instr, decode (encode i) = .ok i) ∧ ∀ (u : MicroWord) (i : Instr), decode u = .ok i → encode i = u

/-- R91 and R84: the decode table over all 4096 words: each of the six patterns gives its micro-operation, and every word
outside them is rejected. -/
def Obligations.DecodeTableByMask : Prop :=
  ∀ u : MicroWord,
    (u &&& 0xF00 = 0x000 ↔ ∃ a b, decode u = .ok (.adc a b)) ∧
    (u &&& 0xF00 = 0x200 ↔ ∃ a b, decode u = .ok (.xor a b)) ∧
    (u &&& 0xF0F = 0x400 ↔ ∃ a, decode u = .ok (.swap a)) ∧
    (u &&& 0xF0F = 0x800 ↔ ∃ a, decode u = .ok (.madc a)) ∧
    (u &&& 0xF0F = 0xA00 ↔ ∃ a, decode u = .ok (.msbc a)) ∧
    (u &&& 0xF0F = 0xC00 ↔ ∃ a, decode u = .ok (.mxor a)) ∧
    ((∃ e, decode u = .error e) ↔
      (u.extractLsb' 9 3 = 0b011 ∨ u.extractLsb' 9 3 = 0b111 ∨ u.getLsbD 8 = true ∨
        ((u.extractLsb' 9 3 = 0b010 ∨ u.extractLsb' 9 3 = 0b100 ∨ u.extractLsb' 9 3 = 0b101 ∨
          u.extractLsb' 9 3 = 0b110) ∧ u.extractLsb' 0 4 ≠ 0)))

/-- Words written out from the spec's encoding (spec/95_test_vectors.md V80 to V92) decode to what they stand for. -/
def Obligations.SpecWordsDecode : Prop :=
  decode 0b000000000001 = .ok (.adc 0 1) ∧ decode 0b000011110011 = .ok (.adc 15 3) ∧
  decode 0b001001010101 = .ok (.xor 5 5) ∧ decode 0b001000110000 = .ok (.xor 3 0) ∧
  decode 0b010000100000 = .ok (.swap 2) ∧ decode 0b100000000000 = .ok (.madc 0) ∧
  decode 0b101011110000 = .ok (.msbc 15) ∧ decode 0b110010110000 = .ok (.mxor 11) ∧
  decode 0b010000100001 = .error .reservedB ∧ decode 0b100000000001 = .error .reservedB ∧
  decode 0b011000000000 = .error .reservedOp ∧ decode 0b111000000000 = .error .reservedOp ∧
  decode 0b000100000000 = .error .reservedRsv

/-- R88 and R89: the mixer ROM's listing decodes to the schedule, entry `i` on lane `i`, and is what the schedule encodes
to; the engine has it at reset. -/
def Obligations.MixerRomIsTheSchedule : Prop :=
  mixProgram mixRomListing = some mixSchedule ∧ romOf mixSchedule = mixRomListing.toList ∧
    State.reset.mixRom = mixRomListing

/-- R92: every line that is, but for the case of its letters, the line printed for a micro-operation, each lane by its
name or its alias, assembles to that micro-operation, with or without a comment after it. The blanks and commas of the
printed line, and that case does not matter in `[Z+]` either, are the model's choice (DESIGN CHOICE:
notes/assumptions/13.md). -/
def Obligations.AssemblyRoundTrip : Prop :=
  ∀ (i : Instr) (na nb : LaneIx → List Char) (line note : List Char),
    (na = laneName ∨ na = laneAlias) → (nb = laneName ∨ nb = laneAlias) →
    line.map lowerChar = printInstrAs na nb i →
    parseLine line = .op i ∧ parseLine (line ++ ';' :: note) = .op i

/-- R9, R86 and R87: the built chip's ROM is well-formed, and the two repository tables share entries 0 to 15 and
differ. That both tables have an entry at each `k` below 16 is the model's reading of R9 (DEDUCED:
notes/assumptions/4.md). -/
def Obligations.BuiltTablesWellFormed : Prop :=
  rfProgram rfRomBuilt = some Config.rfTable ∧
  (∀ k < 16, Config.rf.tableA[k]? = Config.rf.tableB[k]? ∧ (Config.rf.tableA[k]?).isSome = true) ∧
  Config.rf.tableA ≠ Config.rf.tableB

/-- R84, R86 and R90: a round-function ROM is a program exactly when it has at most 255 words, each an ADC, XOR or SWAP; a
mixer ROM exactly when entry `n` is a format M word on lane `n`, for every `n`. So a ROM with a reserved word is none, nor
a round-function ROM with a format M word. The engine refuses to run an ill-formed ROM rather than give it a meaning.
That the refusal is of the ROM as a whole (DEDUCED) and which step makes it (INIT for both ROMs, an RF step for the
round-function ROM, a MIX step for the mixer ROM: DESIGN CHOICE) are the model's choice: notes/assumptions/5.md. -/
def Obligations.IllFormedRomsAreRefused : Prop :=
  (∀ rom : List MicroWord, (rfProgram rom).isSome = true ↔
    rom.length ≤ 255 ∧ ∀ u ∈ rom, (∃ a b, decode u = .ok (.adc a b)) ∨ (∃ a b, decode u = .ok (.xor a b)) ∨
      ∃ a, decode u = .ok (.swap a)) ∧
  (∀ rom : Vector MicroWord 16, (mixProgram rom).isSome = true ↔
    ∀ n : Fin 16, decode rom[n] = .ok (.madc n) ∨ decode rom[n] = .ok (.msbc n) ∨ decode rom[n] = .ok (.mxor n)) ∧
  (∀ s : State, s.phase = .init ∨ s.phase = .rf → rfProgram s.rfRom = none →
    engineStep s = .refused .illFormedRfRom) ∧
  (∀ s : State, (s.phase = .init ∧ (rfProgram s.rfRom).isSome = true) ∨ s.phase = .mix → mixProgram s.mixRom = none →
    engineStep s = .refused .illFormedMixRom)

/-! ## The invariant -/

/-- The reset state meets the invariant, whichever well-formed table the chip carries. -/
def Obligations.InvAtReset : Prop := State.Inv State.reset

/-- Every step keeps the invariant (R26, R132: the counters and the cursor stay in step; the buffer stays canonical; the
ROMs stay well-formed; DONE is never set while an invocation runs), from every state that meets it. -/
def Obligations.StepKeepsInv : Prop :=
  ∀ s t : State, s.Inv → step s = .next t → t.Inv

/-- R158 and R200: every micro-op answers a next state from every state, on every operand; and from every state that
meets the invariant, so does a step of the machine: no fault, no stop. -/
def Obligations.EngineNeverStops : Prop :=
  (∀ (i : Instr) (s : State), ∃ t, exec i s = .next t) ∧ ∀ s : State, s.Inv → ∃ t, step s = .next t

/-! ## The invocation as a whole -/

/-- R110: from the start of a row, as many engine steps as the table has entries are the fold of the table over the lanes
and the carry, and leave the engine at the mixer; cursor and buffer are untouched. The table is any well-formed one. -/
def Obligations.RoundFunctionIsFold : Prop :=
  ∀ (s : State) (p : List Instr), s.phase = .rf → s.k = 0 → rfProgram s.rfRom = some p → p ≠ [] →
    ∃ t, engineRun p.length s = .next t ∧ t.view = refRun p s.view ∧ t.z = s.z ∧ SameBuffer s t ∧
      t.phase = .mix ∧ t.k = 0 ∧ t.i = 0 ∧ t.row = s.row ∧ t.outer = s.outer ∧ t.iv = s.iv ∧
      t.ie = s.ie ∧ t.done = s.done ∧ t.accerr = s.accerr ∧ SameBuild s t

/-- R131: from the start of the mixer, 16 engine steps are the fold of the schedule over the lanes, the carry and the
buffer, for the hardware's mixer ROM. -/
def Obligations.StateMixerIsFold : Prop :=
  ∀ s : State, s.phase = .mix → s.i = 0 → s.mixRom = mixRomListing →
    ∃ t, engineRun 16 s = .next t ∧ t.lanes = (refRun mixSchedule s.view).lanes ∧
      t.carry = (refRun mixSchedule s.view).carry ∧ t.buffer = (refRun mixSchedule s.view).buf ∧ t.iv = s.iv

/-- R157: from `INIT`, for every well-formed table, the engine reaches `IDLE` after exactly `1 + 32 * (RF_LEN + 16)`
steps, busy all the way, and then the buffer is `dance` of the table, the buffer and the IV. -/
def Obligations.InvocationComputesDance : Prop :=
  ∀ (s : State) (p : List Instr), s.phase = .init → rfProgram s.rfRom = some p → s.mixRom = mixRomListing →
    (∃ t, engineRun (1 + 32 * (p.length + 16)) s = .next t ∧ t.phase = .idle ∧ t.done = true ∧
      t.buffer = dance p s.buffer s.iv ∧ t.iv = s.iv) ∧
    ∀ n < 1 + 32 * (p.length + 16), ∃ u, engineRun n s = .next u ∧ u.phase ≠ .idle

/-- R137: an invocation performs exactly 512 buffer writes, and every one of the 64 buffer bytes is written exactly 8
times. -/
def Obligations.EveryByteWrittenEightTimes : Prop :=
  ∀ s : State, s.Inv → s.phase = .init →
    (bufferWrites (1 + 32 * (s.rfRom.length + 16)) s).length = 512 ∧
    ∀ z : BitVec 6, (bufferWrites (1 + 32 * (s.rfRom.length + 16)) s).count z = 8

/-- R159: two engines that start an invocation with the same ROMs, IV and buffer contents agree, after every step from
`INIT` on, on the lanes, the carry, the cursor, the buffer and the sequencer, whatever they held before (the free values
of reset among it). -/
def Obligations.ResultIndependentOfEarlierState : Prop :=
  ∀ (s t u v : State) (n : Nat), s.phase = .init → t.phase = .init → t.rfRom = s.rfRom → t.mixRom = s.mixRom →
    t.iv = s.iv → SameBuffer s t → engineRun (n + 1) s = .next u → engineRun (n + 1) t = .next v →
    v.view = u.view ∧ v.phase = u.phase ∧ v.outer = u.outer ∧ v.row = u.row ∧ v.k = u.k ∧ v.i = u.i

/-- R67: host accesses of any kind, interleaved anywhere in an invocation, do not change its result: whenever the engine
gets its `1 + 32 * (RF_LEN + 16)` steps, the last of them last, the buffer is `dance` of the buffer and IV at the start.
(A reset is no host access.) -/
def Obligations.InterleavingDoesNotChangeResult : Prop :=
  ∀ (s : State) (p : List Instr) (xs : List Input), s.phase = .init → rfProgram s.rfRom = some p →
    s.mixRom = mixRomListing → (∀ x ∈ xs, x = .engine ∨ ∃ a, x = .access a) →
    xs.count .engine = 1 + 32 * (p.length + 16) → xs.getLast? = some .engine →
    ∃ t, RunsTo xs.length { s with inputs := xs } t ∧ t.phase = .idle ∧ t.done = true ∧
      t.buffer = dance p s.buffer s.iv ∧ t.iv = s.iv

/-- R176 and R162: from every idle state, the host's call sequence (IV, buffer, START) followed by the engine's steps
ends idle with DONE set, no access error raised, and the buffer holding `dance` of the buffer and IV the host wrote. -/
def Obligations.CallComputesDance : Prop :=
  ∀ (s : State) (p : List Instr) (iv : Vector Word32 4) (buf : Vector Byte 64), s.busy = false →
    rfProgram s.rfRom = some p → s.mixRom = mixRomListing →
    ∃ t, RunsTo (21 + (1 + 32 * (p.length + 16))) { s with inputs := accesses (callWrites iv buf) } t ∧
      t.phase = .idle ∧ t.done = true ∧ t.accerr = s.accerr ∧ t.iv = iv ∧ t.buffer = dance p buf iv

/-- R160: a second START with no write between computes on the first result: the buffer after it is `dance` of `dance`. -/
def Obligations.ChainedInvocationsRatchet : Prop :=
  ∀ (s : State) (p : List Instr), s.busy = false → rfProgram s.rfRom = some p → s.mixRom = mixRomListing →
    ∃ t, RunsTo (2 * (1 + (1 + 32 * (p.length + 16))) + 1)
        { s with inputs := accesses [startWrite] ++ List.replicate (1 + 32 * (p.length + 16)) .engine ++
          accesses [clearDoneWrite, startWrite] } t ∧
      t.phase = .idle ∧ t.done = true ∧ t.accerr = s.accerr ∧ t.iv = s.iv ∧
      t.buffer = dance p (dance p s.buffer s.iv) s.iv

/-- The first half of R104: with the carry set to 0 instead of 1, the transform of the zero buffer under the zero IV is
the zero buffer, for every well-formed table. -/
def Obligations.ZeroCarryZeroBufferStaysZero : Prop :=
  ∀ t : List Instr, RfTable.wf t = true →
    danceWithCarry false t (Vector.replicate 64 0) (Vector.replicate 4 0) = Vector.replicate 64 0
end

