-- ==== Sys2Proof/Laws/Assembler.lean ====
section
/-! SUPPORT. Reading a line of assembly does not depend on the case of its letters, nor on a comment after it. -/

namespace Sys2Proof.Machine

/-- A character whose code is no capital letter's is its own lower case. -/
theorem lowerChar_of_not_upper {c : Char} (h : ¬ (65 ≤ c.toNat ∧ c.toNat ≤ 90)) : lowerChar c = c := if_neg h

/-- A capital letter is one of 26 characters. -/
theorem upper_cases {c : Char} (h : 65 ≤ c.toNat ∧ c.toNat ≤ 90) : ∃ n : Fin 26, c = Char.ofNat (65 + n.val) := by
  refine ⟨⟨c.toNat - 65, by omega⟩, ?_⟩
  rw [show 65 + (c.toNat - 65) = c.toNat by omega]
  exact (Char.ofNat_toNat c).symm

theorem lowerChar_idem (c : Char) : lowerChar (lowerChar c) = lowerChar c := by
  by_cases h : 65 ≤ c.toNat ∧ c.toNat ≤ 90
  · obtain ⟨n, rfl⟩ := upper_cases h
    revert n
    decide
  · rw [lowerChar_of_not_upper h, lowerChar_of_not_upper h]

/-- The characters that separate or end tokens are no letters. -/
theorem lowerChar_eq_sep {c d : Char} (hd : d ∈ [' ', '\t', ',', ';']) : lowerChar c = d ↔ c = d := by
  by_cases h : 65 ≤ c.toNat ∧ c.toNat ≤ 90
  · obtain ⟨n, rfl⟩ := upper_cases h
    simp only [List.mem_cons, List.not_mem_nil, or_false] at hd
    rcases hd with rfl | rfl | rfl | rfl <;> (revert n; decide)
  · rw [lowerChar_of_not_upper h]

/-- The tokens of a line are those of the line in lower case. -/
theorem tokens_lower (tok cs : List Char) : tokens tok (cs.map lowerChar) = tokens tok cs := by
  induction cs generalizing tok with
  | nil => rfl
  | cons c cs ih =>
    simp only [List.map_cons, tokens, ih, lowerChar_idem]
    simp only [lowerChar_eq_sep (d := ' ') (by decide), lowerChar_eq_sep (d := '\t') (by decide),
      lowerChar_eq_sep (d := ',') (by decide)]

theorem stripComment_of_not_mem {cs : List Char} (h : ';' ∉ cs) : stripComment cs = cs := by
  unfold stripComment
  rw [List.takeWhile_eq_self_iff]
  intro c hc
  have : c ≠ ';' := fun e => h (e ▸ hc)
  simpa using this

theorem stripComment_append {cs : List Char} (h : ';' ∉ cs) (note : List Char) :
    stripComment (cs ++ ';' :: note) = cs := by
  have hall : ∀ c ∈ cs, (c != ';') = true := fun c hc => by
    have : c ≠ ';' := fun e => h (e ▸ hc)
    simpa using this
  unfold stripComment
  rw [List.takeWhile_append_of_pos hall]
  simp

/-- A line that holds no comment reads as its lower case does, with or without a comment after it (R92). -/
theorem parseLine_lower {line low : List Char} (hl : line.map lowerChar = low) (hs : ';' ∉ low) (note : List Char) :
    parseLine line = parseLine low ∧ parseLine (line ++ ';' :: note) = parseLine low := by
  have hn : ';' ∉ line := fun h => hs (hl ▸ List.mem_map.mpr ⟨';', h, by decide⟩)
  subst hl
  unfold parseLine
  rw [stripComment_of_not_mem hn, stripComment_append hn, stripComment_of_not_mem hs, tokens_lower]
  exact ⟨rfl, rfl⟩

end Sys2Proof.Machine
end

