-- ==== Sys2Proof/Laws/Driver.lean ====
section
/-! SUPPORT. What each field holds after the start of a row, the `INIT` step and the end of an invocation. -/

namespace Sys2Proof.Machine

variable (s : State)

@[simp] theorem State.startRow_lanes : s.startRow.lanes = s.lanes := rfl
@[simp] theorem State.startRow_carry : s.startRow.carry = s.carry := rfl
@[simp] theorem State.startRow_phase : s.startRow.phase = (if 0 < s.rfRom.length then .rf else .mix) := rfl
@[simp] theorem State.startRow_outer : s.startRow.outer = s.outer := rfl
@[simp] theorem State.startRow_row : s.startRow.row = s.row := rfl
@[simp] theorem State.startRow_k : s.startRow.k = 0 := rfl
@[simp] theorem State.startRow_i : s.startRow.i = 0 := rfl
@[simp] theorem State.startRow_z : s.startRow.z = s.z := rfl
@[simp] theorem State.startRow_iv : s.startRow.iv = s.iv := rfl
@[simp] theorem State.startRow_buf : s.startRow.buf = s.buf := rfl
@[simp] theorem State.startRow_ie : s.startRow.ie = s.ie := rfl
@[simp] theorem State.startRow_done : s.startRow.done = s.done := rfl
@[simp] theorem State.startRow_accerr : s.startRow.accerr = s.accerr := rfl
@[simp] theorem State.startRow_rfRom : s.startRow.rfRom = s.rfRom := rfl
@[simp] theorem State.startRow_mixRom : s.startRow.mixRom = s.mixRom := rfl
@[simp] theorem State.startRow_rfVariant : s.startRow.rfVariant = s.rfVariant := rfl
@[simp] theorem State.startRow_rdata : s.startRow.rdata = s.rdata := rfl
@[simp] theorem State.startRow_inputs : s.startRow.inputs = s.inputs := rfl
@[simp] theorem State.startRow_draws : s.startRow.draws = s.draws := rfl
@[simp] theorem State.startRow_bufDraw : s.startRow.bufDraw = s.bufDraw := rfl

@[simp] theorem State.initStep_lanes : s.initStep.lanes = initLanes s.iv := by simp only [State.initStep, State.startRow, State.rfLen]
@[simp] theorem State.initStep_carry : s.initStep.carry = true := by simp only [State.initStep, State.startRow, State.rfLen]
@[simp] theorem State.initStep_phase : s.initStep.phase = (if 0 < s.rfRom.length then .rf else .mix) := rfl
@[simp] theorem State.initStep_outer : s.initStep.outer = 0 := by simp only [State.initStep, State.startRow, State.rfLen]
@[simp] theorem State.initStep_row : s.initStep.row = 0 := by simp only [State.initStep, State.startRow, State.rfLen]
@[simp] theorem State.initStep_k : s.initStep.k = 0 := by simp only [State.initStep, State.startRow, State.rfLen]
@[simp] theorem State.initStep_i : s.initStep.i = 0 := by simp only [State.initStep, State.startRow, State.rfLen]
@[simp] theorem State.initStep_z : s.initStep.z = 0 := by simp only [State.initStep, State.startRow, State.rfLen]
@[simp] theorem State.initStep_iv : s.initStep.iv = s.iv := by simp only [State.initStep, State.startRow, State.rfLen]
@[simp] theorem State.initStep_buf : s.initStep.buf = s.buf := by simp only [State.initStep, State.startRow, State.rfLen]
@[simp] theorem State.initStep_ie : s.initStep.ie = s.ie := by simp only [State.initStep, State.startRow, State.rfLen]
@[simp] theorem State.initStep_done : s.initStep.done = s.done := by simp only [State.initStep, State.startRow, State.rfLen]
@[simp] theorem State.initStep_accerr : s.initStep.accerr = s.accerr := by simp only [State.initStep, State.startRow, State.rfLen]
@[simp] theorem State.initStep_rfRom : s.initStep.rfRom = s.rfRom := by simp only [State.initStep, State.startRow, State.rfLen]
@[simp] theorem State.initStep_mixRom : s.initStep.mixRom = s.mixRom := by simp only [State.initStep, State.startRow, State.rfLen]
@[simp] theorem State.initStep_rfVariant : s.initStep.rfVariant = s.rfVariant := by simp only [State.initStep, State.startRow, State.rfLen]
@[simp] theorem State.initStep_rdata : s.initStep.rdata = s.rdata := by simp only [State.initStep, State.startRow, State.rfLen]
@[simp] theorem State.initStep_inputs : s.initStep.inputs = s.inputs := by simp only [State.initStep, State.startRow, State.rfLen]
@[simp] theorem State.initStep_draws : s.initStep.draws = s.draws := by simp only [State.initStep, State.startRow, State.rfLen]
@[simp] theorem State.initStep_bufDraw : s.initStep.bufDraw = s.bufDraw := by simp only [State.initStep, State.startRow, State.rfLen]

@[simp] theorem State.endOfInvocation_lanes : s.endOfInvocation.lanes = s.lanes := rfl
@[simp] theorem State.endOfInvocation_carry : s.endOfInvocation.carry = s.carry := rfl
@[simp] theorem State.endOfInvocation_phase : s.endOfInvocation.phase = .idle := rfl
@[simp] theorem State.endOfInvocation_outer : s.endOfInvocation.outer = s.outer := rfl
@[simp] theorem State.endOfInvocation_row : s.endOfInvocation.row = s.row := rfl
@[simp] theorem State.endOfInvocation_k : s.endOfInvocation.k = s.k := rfl
@[simp] theorem State.endOfInvocation_i : s.endOfInvocation.i = s.i := rfl
@[simp] theorem State.endOfInvocation_z : s.endOfInvocation.z = s.z := rfl
@[simp] theorem State.endOfInvocation_iv : s.endOfInvocation.iv = s.iv := rfl
@[simp] theorem State.endOfInvocation_buf : s.endOfInvocation.buf = s.buf := rfl
@[simp] theorem State.endOfInvocation_ie : s.endOfInvocation.ie = s.ie := rfl
@[simp] theorem State.endOfInvocation_done : s.endOfInvocation.done = true := rfl
@[simp] theorem State.endOfInvocation_accerr : s.endOfInvocation.accerr = s.accerr := rfl
@[simp] theorem State.endOfInvocation_rfRom : s.endOfInvocation.rfRom = s.rfRom := rfl
@[simp] theorem State.endOfInvocation_mixRom : s.endOfInvocation.mixRom = s.mixRom := rfl
@[simp] theorem State.endOfInvocation_rfVariant : s.endOfInvocation.rfVariant = s.rfVariant := rfl
@[simp] theorem State.endOfInvocation_rdata : s.endOfInvocation.rdata = s.rdata := rfl
@[simp] theorem State.endOfInvocation_inputs : s.endOfInvocation.inputs = s.inputs := rfl
@[simp] theorem State.endOfInvocation_draws : s.endOfInvocation.draws = s.draws := rfl
@[simp] theorem State.endOfInvocation_bufDraw : s.endOfInvocation.bufDraw = s.bufDraw := rfl

end Sys2Proof.Machine
end

