-- ==== Sys2Proof/Laws/Flags.lean ====
section
/-! SUPPORT. The carry and borrow as comparisons of the exact result (R11). -/

namespace Sys2Proof.Machine

theorem adcCarry_eq (x y : Byte) (c : Bool) : adcCarry x y c = decide (256 ≤ x.toNat + y.toNat + c.toNat) := by
  have hx := x.isLt; have hy := y.isLt; have hc := c.toNat_le
  refine decide_eq_decide.mpr ?_
  simp only [sum9]
  omega

theorem sbcBorrow_eq (x y : Byte) (c : Bool) : sbcBorrow x y c = decide (x.toNat < y.toNat + c.toNat) := by
  refine decide_eq_decide.mpr ?_
  simp only [diff9]
  omega

/-- The borrow is bit 8 of the difference in a 16-bit accumulator (R11, R23). -/
theorem sbcBorrow_eq_bit8 (x y : Byte) (c : Bool) : sbcBorrow x y c = bit8 (diff9 x y c % 65536).toNat := by
  have hx := x.isLt; have hy := y.isLt; have hc := c.toNat_le
  refine decide_eq_decide.mpr ?_
  simp only [diff9]
  omega

theorem swapNibbles_eq_shift (x : Byte) : swapNibbles x = x <<< 4 ||| x >>> 4 := by
  revert x; decide

end Sys2Proof.Machine
end

