-- ==== Sys2Proof/Laws/State.lean ====
section
/-! SUPPORT. What each field holds after each named update of the state, so that no proof unfolds a record update. -/

namespace Sys2Proof.Machine

variable (s : State)

@[simp] theorem State.writeLane_lanes (a : LaneIx) (v : Byte) :
    (s.writeLane a v).lanes = s.lanes.set a v := rfl
@[simp] theorem State.writeLane_carry (a : LaneIx) (v : Byte) :
    (s.writeLane a v).carry = s.carry := rfl
@[simp] theorem State.writeLane_phase (a : LaneIx) (v : Byte) :
    (s.writeLane a v).phase = s.phase := rfl
@[simp] theorem State.writeLane_outer (a : LaneIx) (v : Byte) :
    (s.writeLane a v).outer = s.outer := rfl
@[simp] theorem State.writeLane_row (a : LaneIx) (v : Byte) :
    (s.writeLane a v).row = s.row := rfl
@[simp] theorem State.writeLane_k (a : LaneIx) (v : Byte) :
    (s.writeLane a v).k = s.k := rfl
@[simp] theorem State.writeLane_i (a : LaneIx) (v : Byte) :
    (s.writeLane a v).i = s.i := rfl
@[simp] theorem State.writeLane_z (a : LaneIx) (v : Byte) :
    (s.writeLane a v).z = s.z := rfl
@[simp] theorem State.writeLane_iv (a : LaneIx) (v : Byte) :
    (s.writeLane a v).iv = s.iv := rfl
@[simp] theorem State.writeLane_buf (a : LaneIx) (v : Byte) :
    (s.writeLane a v).buf = s.buf := rfl
@[simp] theorem State.writeLane_ie (a : LaneIx) (v : Byte) :
    (s.writeLane a v).ie = s.ie := rfl
@[simp] theorem State.writeLane_done (a : LaneIx) (v : Byte) :
    (s.writeLane a v).done = s.done := rfl
@[simp] theorem State.writeLane_accerr (a : LaneIx) (v : Byte) :
    (s.writeLane a v).accerr = s.accerr := rfl
@[simp] theorem State.writeLane_rfRom (a : LaneIx) (v : Byte) :
    (s.writeLane a v).rfRom = s.rfRom := rfl
@[simp] theorem State.writeLane_mixRom (a : LaneIx) (v : Byte) :
    (s.writeLane a v).mixRom = s.mixRom := rfl
@[simp] theorem State.writeLane_rfVariant (a : LaneIx) (v : Byte) :
    (s.writeLane a v).rfVariant = s.rfVariant := rfl
@[simp] theorem State.writeLane_rdata (a : LaneIx) (v : Byte) :
    (s.writeLane a v).rdata = s.rdata := rfl
@[simp] theorem State.writeLane_inputs (a : LaneIx) (v : Byte) :
    (s.writeLane a v).inputs = s.inputs := rfl
@[simp] theorem State.writeLane_draws (a : LaneIx) (v : Byte) :
    (s.writeLane a v).draws = s.draws := rfl
@[simp] theorem State.writeLane_bufDraw (a : LaneIx) (v : Byte) :
    (s.writeLane a v).bufDraw = s.bufDraw := rfl

@[simp] theorem State.writeCarry_lanes (c : Bool) :
    (s.writeCarry c).lanes = s.lanes := rfl
@[simp] theorem State.writeCarry_carry (c : Bool) :
    (s.writeCarry c).carry = c := rfl
@[simp] theorem State.writeCarry_phase (c : Bool) :
    (s.writeCarry c).phase = s.phase := rfl
@[simp] theorem State.writeCarry_outer (c : Bool) :
    (s.writeCarry c).outer = s.outer := rfl
@[simp] theorem State.writeCarry_row (c : Bool) :
    (s.writeCarry c).row = s.row := rfl
@[simp] theorem State.writeCarry_k (c : Bool) :
    (s.writeCarry c).k = s.k := rfl
@[simp] theorem State.writeCarry_i (c : Bool) :
    (s.writeCarry c).i = s.i := rfl
@[simp] theorem State.writeCarry_z (c : Bool) :
    (s.writeCarry c).z = s.z := rfl
@[simp] theorem State.writeCarry_iv (c : Bool) :
    (s.writeCarry c).iv = s.iv := rfl
@[simp] theorem State.writeCarry_buf (c : Bool) :
    (s.writeCarry c).buf = s.buf := rfl
@[simp] theorem State.writeCarry_ie (c : Bool) :
    (s.writeCarry c).ie = s.ie := rfl
@[simp] theorem State.writeCarry_done (c : Bool) :
    (s.writeCarry c).done = s.done := rfl
@[simp] theorem State.writeCarry_accerr (c : Bool) :
    (s.writeCarry c).accerr = s.accerr := rfl
@[simp] theorem State.writeCarry_rfRom (c : Bool) :
    (s.writeCarry c).rfRom = s.rfRom := rfl
@[simp] theorem State.writeCarry_mixRom (c : Bool) :
    (s.writeCarry c).mixRom = s.mixRom := rfl
@[simp] theorem State.writeCarry_rfVariant (c : Bool) :
    (s.writeCarry c).rfVariant = s.rfVariant := rfl
@[simp] theorem State.writeCarry_rdata (c : Bool) :
    (s.writeCarry c).rdata = s.rdata := rfl
@[simp] theorem State.writeCarry_inputs (c : Bool) :
    (s.writeCarry c).inputs = s.inputs := rfl
@[simp] theorem State.writeCarry_draws (c : Bool) :
    (s.writeCarry c).draws = s.draws := rfl
@[simp] theorem State.writeCarry_bufDraw (c : Bool) :
    (s.writeCarry c).bufDraw = s.bufDraw := rfl

@[simp] theorem State.bufWrite_lanes (z : BitVec 6) (v : Byte) :
    (s.bufWrite z v).lanes = s.lanes := rfl
@[simp] theorem State.bufWrite_carry (z : BitVec 6) (v : Byte) :
    (s.bufWrite z v).carry = s.carry := rfl
@[simp] theorem State.bufWrite_phase (z : BitVec 6) (v : Byte) :
    (s.bufWrite z v).phase = s.phase := rfl
@[simp] theorem State.bufWrite_outer (z : BitVec 6) (v : Byte) :
    (s.bufWrite z v).outer = s.outer := rfl
@[simp] theorem State.bufWrite_row (z : BitVec 6) (v : Byte) :
    (s.bufWrite z v).row = s.row := rfl
@[simp] theorem State.bufWrite_k (z : BitVec 6) (v : Byte) :
    (s.bufWrite z v).k = s.k := rfl
@[simp] theorem State.bufWrite_i (z : BitVec 6) (v : Byte) :
    (s.bufWrite z v).i = s.i := rfl
@[simp] theorem State.bufWrite_z (z : BitVec 6) (v : Byte) :
    (s.bufWrite z v).z = s.z := rfl
@[simp] theorem State.bufWrite_iv (z : BitVec 6) (v : Byte) :
    (s.bufWrite z v).iv = s.iv := rfl
@[simp] theorem State.bufWrite_buf (z : BitVec 6) (v : Byte) :
    (s.bufWrite z v).buf = Memory.write s.buf z.toNat v := rfl
@[simp] theorem State.bufWrite_ie (z : BitVec 6) (v : Byte) :
    (s.bufWrite z v).ie = s.ie := rfl
@[simp] theorem State.bufWrite_done (z : BitVec 6) (v : Byte) :
    (s.bufWrite z v).done = s.done := rfl
@[simp] theorem State.bufWrite_accerr (z : BitVec 6) (v : Byte) :
    (s.bufWrite z v).accerr = s.accerr := rfl
@[simp] theorem State.bufWrite_rfRom (z : BitVec 6) (v : Byte) :
    (s.bufWrite z v).rfRom = s.rfRom := rfl
@[simp] theorem State.bufWrite_mixRom (z : BitVec 6) (v : Byte) :
    (s.bufWrite z v).mixRom = s.mixRom := rfl
@[simp] theorem State.bufWrite_rfVariant (z : BitVec 6) (v : Byte) :
    (s.bufWrite z v).rfVariant = s.rfVariant := rfl
@[simp] theorem State.bufWrite_rdata (z : BitVec 6) (v : Byte) :
    (s.bufWrite z v).rdata = s.rdata := rfl
@[simp] theorem State.bufWrite_inputs (z : BitVec 6) (v : Byte) :
    (s.bufWrite z v).inputs = s.inputs := rfl
@[simp] theorem State.bufWrite_draws (z : BitVec 6) (v : Byte) :
    (s.bufWrite z v).draws = s.draws := rfl
@[simp] theorem State.bufWrite_bufDraw (z : BitVec 6) (v : Byte) :
    (s.bufWrite z v).bufDraw = s.bufDraw := rfl

@[simp] theorem State.writeCursor_lanes (z : BitVec 6) :
    (s.writeCursor z).lanes = s.lanes := rfl
@[simp] theorem State.writeCursor_carry (z : BitVec 6) :
    (s.writeCursor z).carry = s.carry := rfl
@[simp] theorem State.writeCursor_phase (z : BitVec 6) :
    (s.writeCursor z).phase = s.phase := rfl
@[simp] theorem State.writeCursor_outer (z : BitVec 6) :
    (s.writeCursor z).outer = s.outer := rfl
@[simp] theorem State.writeCursor_row (z : BitVec 6) :
    (s.writeCursor z).row = s.row := rfl
@[simp] theorem State.writeCursor_k (z : BitVec 6) :
    (s.writeCursor z).k = s.k := rfl
@[simp] theorem State.writeCursor_i (z : BitVec 6) :
    (s.writeCursor z).i = s.i := rfl
@[simp] theorem State.writeCursor_z (z : BitVec 6) :
    (s.writeCursor z).z = z := rfl
@[simp] theorem State.writeCursor_iv (z : BitVec 6) :
    (s.writeCursor z).iv = s.iv := rfl
@[simp] theorem State.writeCursor_buf (z : BitVec 6) :
    (s.writeCursor z).buf = s.buf := rfl
@[simp] theorem State.writeCursor_ie (z : BitVec 6) :
    (s.writeCursor z).ie = s.ie := rfl
@[simp] theorem State.writeCursor_done (z : BitVec 6) :
    (s.writeCursor z).done = s.done := rfl
@[simp] theorem State.writeCursor_accerr (z : BitVec 6) :
    (s.writeCursor z).accerr = s.accerr := rfl
@[simp] theorem State.writeCursor_rfRom (z : BitVec 6) :
    (s.writeCursor z).rfRom = s.rfRom := rfl
@[simp] theorem State.writeCursor_mixRom (z : BitVec 6) :
    (s.writeCursor z).mixRom = s.mixRom := rfl
@[simp] theorem State.writeCursor_rfVariant (z : BitVec 6) :
    (s.writeCursor z).rfVariant = s.rfVariant := rfl
@[simp] theorem State.writeCursor_rdata (z : BitVec 6) :
    (s.writeCursor z).rdata = s.rdata := rfl
@[simp] theorem State.writeCursor_inputs (z : BitVec 6) :
    (s.writeCursor z).inputs = s.inputs := rfl
@[simp] theorem State.writeCursor_draws (z : BitVec 6) :
    (s.writeCursor z).draws = s.draws := rfl
@[simp] theorem State.writeCursor_bufDraw (z : BitVec 6) :
    (s.writeCursor z).bufDraw = s.bufDraw := rfl

@[simp] theorem State.writeIv_lanes (n : Fin 4) (w : Word32) :
    (s.writeIv n w).lanes = s.lanes := rfl
@[simp] theorem State.writeIv_carry (n : Fin 4) (w : Word32) :
    (s.writeIv n w).carry = s.carry := rfl
@[simp] theorem State.writeIv_phase (n : Fin 4) (w : Word32) :
    (s.writeIv n w).phase = s.phase := rfl
@[simp] theorem State.writeIv_outer (n : Fin 4) (w : Word32) :
    (s.writeIv n w).outer = s.outer := rfl
@[simp] theorem State.writeIv_row (n : Fin 4) (w : Word32) :
    (s.writeIv n w).row = s.row := rfl
@[simp] theorem State.writeIv_k (n : Fin 4) (w : Word32) :
    (s.writeIv n w).k = s.k := rfl
@[simp] theorem State.writeIv_i (n : Fin 4) (w : Word32) :
    (s.writeIv n w).i = s.i := rfl
@[simp] theorem State.writeIv_z (n : Fin 4) (w : Word32) :
    (s.writeIv n w).z = s.z := rfl
@[simp] theorem State.writeIv_iv (n : Fin 4) (w : Word32) :
    (s.writeIv n w).iv = s.iv.set n w := rfl
@[simp] theorem State.writeIv_buf (n : Fin 4) (w : Word32) :
    (s.writeIv n w).buf = s.buf := rfl
@[simp] theorem State.writeIv_ie (n : Fin 4) (w : Word32) :
    (s.writeIv n w).ie = s.ie := rfl
@[simp] theorem State.writeIv_done (n : Fin 4) (w : Word32) :
    (s.writeIv n w).done = s.done := rfl
@[simp] theorem State.writeIv_accerr (n : Fin 4) (w : Word32) :
    (s.writeIv n w).accerr = s.accerr := rfl
@[simp] theorem State.writeIv_rfRom (n : Fin 4) (w : Word32) :
    (s.writeIv n w).rfRom = s.rfRom := rfl
@[simp] theorem State.writeIv_mixRom (n : Fin 4) (w : Word32) :
    (s.writeIv n w).mixRom = s.mixRom := rfl
@[simp] theorem State.writeIv_rfVariant (n : Fin 4) (w : Word32) :
    (s.writeIv n w).rfVariant = s.rfVariant := rfl
@[simp] theorem State.writeIv_rdata (n : Fin 4) (w : Word32) :
    (s.writeIv n w).rdata = s.rdata := rfl
@[simp] theorem State.writeIv_inputs (n : Fin 4) (w : Word32) :
    (s.writeIv n w).inputs = s.inputs := rfl
@[simp] theorem State.writeIv_draws (n : Fin 4) (w : Word32) :
    (s.writeIv n w).draws = s.draws := rfl
@[simp] theorem State.writeIv_bufDraw (n : Fin 4) (w : Word32) :
    (s.writeIv n w).bufDraw = s.bufDraw := rfl

@[simp] theorem State.writeIe_lanes (b : Bool) :
    (s.writeIe b).lanes = s.lanes := rfl
@[simp] theorem State.writeIe_carry (b : Bool) :
    (s.writeIe b).carry = s.carry := rfl
@[simp] theorem State.writeIe_phase (b : Bool) :
    (s.writeIe b).phase = s.phase := rfl
@[simp] theorem State.writeIe_outer (b : Bool) :
    (s.writeIe b).outer = s.outer := rfl
@[simp] theorem State.writeIe_row (b : Bool) :
    (s.writeIe b).row = s.row := rfl
@[simp] theorem State.writeIe_k (b : Bool) :
    (s.writeIe b).k = s.k := rfl
@[simp] theorem State.writeIe_i (b : Bool) :
    (s.writeIe b).i = s.i := rfl
@[simp] theorem State.writeIe_z (b : Bool) :
    (s.writeIe b).z = s.z := rfl
@[simp] theorem State.writeIe_iv (b : Bool) :
    (s.writeIe b).iv = s.iv := rfl
@[simp] theorem State.writeIe_buf (b : Bool) :
    (s.writeIe b).buf = s.buf := rfl
@[simp] theorem State.writeIe_ie (b : Bool) :
    (s.writeIe b).ie = b := rfl
@[simp] theorem State.writeIe_done (b : Bool) :
    (s.writeIe b).done = s.done := rfl
@[simp] theorem State.writeIe_accerr (b : Bool) :
    (s.writeIe b).accerr = s.accerr := rfl
@[simp] theorem State.writeIe_rfRom (b : Bool) :
    (s.writeIe b).rfRom = s.rfRom := rfl
@[simp] theorem State.writeIe_mixRom (b : Bool) :
    (s.writeIe b).mixRom = s.mixRom := rfl
@[simp] theorem State.writeIe_rfVariant (b : Bool) :
    (s.writeIe b).rfVariant = s.rfVariant := rfl
@[simp] theorem State.writeIe_rdata (b : Bool) :
    (s.writeIe b).rdata = s.rdata := rfl
@[simp] theorem State.writeIe_inputs (b : Bool) :
    (s.writeIe b).inputs = s.inputs := rfl
@[simp] theorem State.writeIe_draws (b : Bool) :
    (s.writeIe b).draws = s.draws := rfl
@[simp] theorem State.writeIe_bufDraw (b : Bool) :
    (s.writeIe b).bufDraw = s.bufDraw := rfl

@[simp] theorem State.writeDone_lanes (b : Bool) :
    (s.writeDone b).lanes = s.lanes := rfl
@[simp] theorem State.writeDone_carry (b : Bool) :
    (s.writeDone b).carry = s.carry := rfl
@[simp] theorem State.writeDone_phase (b : Bool) :
    (s.writeDone b).phase = s.phase := rfl
@[simp] theorem State.writeDone_outer (b : Bool) :
    (s.writeDone b).outer = s.outer := rfl
@[simp] theorem State.writeDone_row (b : Bool) :
    (s.writeDone b).row = s.row := rfl
@[simp] theorem State.writeDone_k (b : Bool) :
    (s.writeDone b).k = s.k := rfl
@[simp] theorem State.writeDone_i (b : Bool) :
    (s.writeDone b).i = s.i := rfl
@[simp] theorem State.writeDone_z (b : Bool) :
    (s.writeDone b).z = s.z := rfl
@[simp] theorem State.writeDone_iv (b : Bool) :
    (s.writeDone b).iv = s.iv := rfl
@[simp] theorem State.writeDone_buf (b : Bool) :
    (s.writeDone b).buf = s.buf := rfl
@[simp] theorem State.writeDone_ie (b : Bool) :
    (s.writeDone b).ie = s.ie := rfl
@[simp] theorem State.writeDone_done (b : Bool) :
    (s.writeDone b).done = b := rfl
@[simp] theorem State.writeDone_accerr (b : Bool) :
    (s.writeDone b).accerr = s.accerr := rfl
@[simp] theorem State.writeDone_rfRom (b : Bool) :
    (s.writeDone b).rfRom = s.rfRom := rfl
@[simp] theorem State.writeDone_mixRom (b : Bool) :
    (s.writeDone b).mixRom = s.mixRom := rfl
@[simp] theorem State.writeDone_rfVariant (b : Bool) :
    (s.writeDone b).rfVariant = s.rfVariant := rfl
@[simp] theorem State.writeDone_rdata (b : Bool) :
    (s.writeDone b).rdata = s.rdata := rfl
@[simp] theorem State.writeDone_inputs (b : Bool) :
    (s.writeDone b).inputs = s.inputs := rfl
@[simp] theorem State.writeDone_draws (b : Bool) :
    (s.writeDone b).draws = s.draws := rfl
@[simp] theorem State.writeDone_bufDraw (b : Bool) :
    (s.writeDone b).bufDraw = s.bufDraw := rfl

@[simp] theorem State.writeAccerr_lanes (b : Bool) :
    (s.writeAccerr b).lanes = s.lanes := rfl
@[simp] theorem State.writeAccerr_carry (b : Bool) :
    (s.writeAccerr b).carry = s.carry := rfl
@[simp] theorem State.writeAccerr_phase (b : Bool) :
    (s.writeAccerr b).phase = s.phase := rfl
@[simp] theorem State.writeAccerr_outer (b : Bool) :
    (s.writeAccerr b).outer = s.outer := rfl
@[simp] theorem State.writeAccerr_row (b : Bool) :
    (s.writeAccerr b).row = s.row := rfl
@[simp] theorem State.writeAccerr_k (b : Bool) :
    (s.writeAccerr b).k = s.k := rfl
@[simp] theorem State.writeAccerr_i (b : Bool) :
    (s.writeAccerr b).i = s.i := rfl
@[simp] theorem State.writeAccerr_z (b : Bool) :
    (s.writeAccerr b).z = s.z := rfl
@[simp] theorem State.writeAccerr_iv (b : Bool) :
    (s.writeAccerr b).iv = s.iv := rfl
@[simp] theorem State.writeAccerr_buf (b : Bool) :
    (s.writeAccerr b).buf = s.buf := rfl
@[simp] theorem State.writeAccerr_ie (b : Bool) :
    (s.writeAccerr b).ie = s.ie := rfl
@[simp] theorem State.writeAccerr_done (b : Bool) :
    (s.writeAccerr b).done = s.done := rfl
@[simp] theorem State.writeAccerr_accerr (b : Bool) :
    (s.writeAccerr b).accerr = b := rfl
@[simp] theorem State.writeAccerr_rfRom (b : Bool) :
    (s.writeAccerr b).rfRom = s.rfRom := rfl
@[simp] theorem State.writeAccerr_mixRom (b : Bool) :
    (s.writeAccerr b).mixRom = s.mixRom := rfl
@[simp] theorem State.writeAccerr_rfVariant (b : Bool) :
    (s.writeAccerr b).rfVariant = s.rfVariant := rfl
@[simp] theorem State.writeAccerr_rdata (b : Bool) :
    (s.writeAccerr b).rdata = s.rdata := rfl
@[simp] theorem State.writeAccerr_inputs (b : Bool) :
    (s.writeAccerr b).inputs = s.inputs := rfl
@[simp] theorem State.writeAccerr_draws (b : Bool) :
    (s.writeAccerr b).draws = s.draws := rfl
@[simp] theorem State.writeAccerr_bufDraw (b : Bool) :
    (s.writeAccerr b).bufDraw = s.bufDraw := rfl

@[simp] theorem State.writePhase_lanes (p : Phase) :
    (s.writePhase p).lanes = s.lanes := rfl
@[simp] theorem State.writePhase_carry (p : Phase) :
    (s.writePhase p).carry = s.carry := rfl
@[simp] theorem State.writePhase_phase (p : Phase) :
    (s.writePhase p).phase = p := rfl
@[simp] theorem State.writePhase_outer (p : Phase) :
    (s.writePhase p).outer = s.outer := rfl
@[simp] theorem State.writePhase_row (p : Phase) :
    (s.writePhase p).row = s.row := rfl
@[simp] theorem State.writePhase_k (p : Phase) :
    (s.writePhase p).k = s.k := rfl
@[simp] theorem State.writePhase_i (p : Phase) :
    (s.writePhase p).i = s.i := rfl
@[simp] theorem State.writePhase_z (p : Phase) :
    (s.writePhase p).z = s.z := rfl
@[simp] theorem State.writePhase_iv (p : Phase) :
    (s.writePhase p).iv = s.iv := rfl
@[simp] theorem State.writePhase_buf (p : Phase) :
    (s.writePhase p).buf = s.buf := rfl
@[simp] theorem State.writePhase_ie (p : Phase) :
    (s.writePhase p).ie = s.ie := rfl
@[simp] theorem State.writePhase_done (p : Phase) :
    (s.writePhase p).done = s.done := rfl
@[simp] theorem State.writePhase_accerr (p : Phase) :
    (s.writePhase p).accerr = s.accerr := rfl
@[simp] theorem State.writePhase_rfRom (p : Phase) :
    (s.writePhase p).rfRom = s.rfRom := rfl
@[simp] theorem State.writePhase_mixRom (p : Phase) :
    (s.writePhase p).mixRom = s.mixRom := rfl
@[simp] theorem State.writePhase_rfVariant (p : Phase) :
    (s.writePhase p).rfVariant = s.rfVariant := rfl
@[simp] theorem State.writePhase_rdata (p : Phase) :
    (s.writePhase p).rdata = s.rdata := rfl
@[simp] theorem State.writePhase_inputs (p : Phase) :
    (s.writePhase p).inputs = s.inputs := rfl
@[simp] theorem State.writePhase_draws (p : Phase) :
    (s.writePhase p).draws = s.draws := rfl
@[simp] theorem State.writePhase_bufDraw (p : Phase) :
    (s.writePhase p).bufDraw = s.bufDraw := rfl

@[simp] theorem State.putRdata_lanes (w : Word32) :
    (s.putRdata w).lanes = s.lanes := rfl
@[simp] theorem State.putRdata_carry (w : Word32) :
    (s.putRdata w).carry = s.carry := rfl
@[simp] theorem State.putRdata_phase (w : Word32) :
    (s.putRdata w).phase = s.phase := rfl
@[simp] theorem State.putRdata_outer (w : Word32) :
    (s.putRdata w).outer = s.outer := rfl
@[simp] theorem State.putRdata_row (w : Word32) :
    (s.putRdata w).row = s.row := rfl
@[simp] theorem State.putRdata_k (w : Word32) :
    (s.putRdata w).k = s.k := rfl
@[simp] theorem State.putRdata_i (w : Word32) :
    (s.putRdata w).i = s.i := rfl
@[simp] theorem State.putRdata_z (w : Word32) :
    (s.putRdata w).z = s.z := rfl
@[simp] theorem State.putRdata_iv (w : Word32) :
    (s.putRdata w).iv = s.iv := rfl
@[simp] theorem State.putRdata_buf (w : Word32) :
    (s.putRdata w).buf = s.buf := rfl
@[simp] theorem State.putRdata_ie (w : Word32) :
    (s.putRdata w).ie = s.ie := rfl
@[simp] theorem State.putRdata_done (w : Word32) :
    (s.putRdata w).done = s.done := rfl
@[simp] theorem State.putRdata_accerr (w : Word32) :
    (s.putRdata w).accerr = s.accerr := rfl
@[simp] theorem State.putRdata_rfRom (w : Word32) :
    (s.putRdata w).rfRom = s.rfRom := rfl
@[simp] theorem State.putRdata_mixRom (w : Word32) :
    (s.putRdata w).mixRom = s.mixRom := rfl
@[simp] theorem State.putRdata_rfVariant (w : Word32) :
    (s.putRdata w).rfVariant = s.rfVariant := rfl
@[simp] theorem State.putRdata_rdata (w : Word32) :
    (s.putRdata w).rdata = some w := rfl
@[simp] theorem State.putRdata_inputs (w : Word32) :
    (s.putRdata w).inputs = s.inputs := rfl
@[simp] theorem State.putRdata_draws (w : Word32) :
    (s.putRdata w).draws = s.draws := rfl
@[simp] theorem State.putRdata_bufDraw (w : Word32) :
    (s.putRdata w).bufDraw = s.bufDraw := rfl

@[simp] theorem State.raiseAccessError_lanes :
    (s.raiseAccessError).lanes = s.lanes := rfl
@[simp] theorem State.raiseAccessError_carry :
    (s.raiseAccessError).carry = s.carry := rfl
@[simp] theorem State.raiseAccessError_phase :
    (s.raiseAccessError).phase = s.phase := rfl
@[simp] theorem State.raiseAccessError_outer :
    (s.raiseAccessError).outer = s.outer := rfl
@[simp] theorem State.raiseAccessError_row :
    (s.raiseAccessError).row = s.row := rfl
@[simp] theorem State.raiseAccessError_k :
    (s.raiseAccessError).k = s.k := rfl
@[simp] theorem State.raiseAccessError_i :
    (s.raiseAccessError).i = s.i := rfl
@[simp] theorem State.raiseAccessError_z :
    (s.raiseAccessError).z = s.z := rfl
@[simp] theorem State.raiseAccessError_iv :
    (s.raiseAccessError).iv = s.iv := rfl
@[simp] theorem State.raiseAccessError_buf :
    (s.raiseAccessError).buf = s.buf := rfl
@[simp] theorem State.raiseAccessError_ie :
    (s.raiseAccessError).ie = s.ie := rfl
@[simp] theorem State.raiseAccessError_done :
    (s.raiseAccessError).done = s.done := rfl
@[simp] theorem State.raiseAccessError_accerr :
    (s.raiseAccessError).accerr = true := rfl
@[simp] theorem State.raiseAccessError_rfRom :
    (s.raiseAccessError).rfRom = s.rfRom := rfl
@[simp] theorem State.raiseAccessError_mixRom :
    (s.raiseAccessError).mixRom = s.mixRom := rfl
@[simp] theorem State.raiseAccessError_rfVariant :
    (s.raiseAccessError).rfVariant = s.rfVariant := rfl
@[simp] theorem State.raiseAccessError_rdata :
    (s.raiseAccessError).rdata = s.rdata := rfl
@[simp] theorem State.raiseAccessError_inputs :
    (s.raiseAccessError).inputs = s.inputs := rfl
@[simp] theorem State.raiseAccessError_draws :
    (s.raiseAccessError).draws = s.draws := rfl
@[simp] theorem State.raiseAccessError_bufDraw :
    (s.raiseAccessError).bufDraw = s.bufDraw := rfl

@[simp] theorem State.beginStep_lanes (rest : List Input) :
    (s.beginStep rest).lanes = s.lanes := rfl
@[simp] theorem State.beginStep_carry (rest : List Input) :
    (s.beginStep rest).carry = s.carry := rfl
@[simp] theorem State.beginStep_phase (rest : List Input) :
    (s.beginStep rest).phase = s.phase := rfl
@[simp] theorem State.beginStep_outer (rest : List Input) :
    (s.beginStep rest).outer = s.outer := rfl
@[simp] theorem State.beginStep_row (rest : List Input) :
    (s.beginStep rest).row = s.row := rfl
@[simp] theorem State.beginStep_k (rest : List Input) :
    (s.beginStep rest).k = s.k := rfl
@[simp] theorem State.beginStep_i (rest : List Input) :
    (s.beginStep rest).i = s.i := rfl
@[simp] theorem State.beginStep_z (rest : List Input) :
    (s.beginStep rest).z = s.z := rfl
@[simp] theorem State.beginStep_iv (rest : List Input) :
    (s.beginStep rest).iv = s.iv := rfl
@[simp] theorem State.beginStep_buf (rest : List Input) :
    (s.beginStep rest).buf = s.buf := rfl
@[simp] theorem State.beginStep_ie (rest : List Input) :
    (s.beginStep rest).ie = s.ie := rfl
@[simp] theorem State.beginStep_done (rest : List Input) :
    (s.beginStep rest).done = s.done := rfl
@[simp] theorem State.beginStep_accerr (rest : List Input) :
    (s.beginStep rest).accerr = s.accerr := rfl
@[simp] theorem State.beginStep_rfRom (rest : List Input) :
    (s.beginStep rest).rfRom = s.rfRom := rfl
@[simp] theorem State.beginStep_mixRom (rest : List Input) :
    (s.beginStep rest).mixRom = s.mixRom := rfl
@[simp] theorem State.beginStep_rfVariant (rest : List Input) :
    (s.beginStep rest).rfVariant = s.rfVariant := rfl
@[simp] theorem State.beginStep_rdata (rest : List Input) :
    (s.beginStep rest).rdata = none := rfl
@[simp] theorem State.beginStep_inputs (rest : List Input) :
    (s.beginStep rest).inputs = rest := rfl
@[simp] theorem State.beginStep_draws (rest : List Input) :
    (s.beginStep rest).draws = s.draws := rfl
@[simp] theorem State.beginStep_bufDraw (rest : List Input) :
    (s.beginStep rest).bufDraw = s.bufDraw := rfl

end Sys2Proof.Machine
end

