-- ==== Sys2Proof/Laws/Memory.lean ====
section
/-! SUPPORT. The laws of the buffer's bytes: a read after a write, and that every write keeps the canonical form. -/

namespace Sys2Proof.Machine

theorem Memory.read_write (m : Memory) (x y : Nat) (v : Byte) :
    Memory.read (Memory.write m x v) y = if x = y then some v else Memory.read m y := by
  induction m with
  | nil => simp [Memory.write, Memory.read]
  | cons c m ih =>
    unfold Memory.write
    split
    · simp [Memory.read]
    · split
      · subst x; by_cases h : c.1 = y <;> simp [Memory.read, h]
      · by_cases h : c.1 = y
        · have : x ≠ y := by omega
          simp [Memory.read, h, this]
        · simp [Memory.read, h, ih]

/-- Every entry of a written memory is the new one or an old one. -/
theorem Memory.mem_write {m : Memory} {x : Nat} {v : Byte} {c : Host.Cell} (h : c ∈ Memory.write m x v) :
    c = (x, v) ∨ c ∈ m := by
  induction m with
  | nil => simpa [Memory.write] using h
  | cons d m ih =>
    unfold Memory.write at h
    split at h
    · simpa using h
    · split at h
      · simp only [List.mem_cons] at h ⊢; tauto
      · simp only [List.mem_cons] at h ⊢; tauto

theorem Memory.wf_write {m : Memory} {x : Nat} (v : Byte) (hm : Memory.wf m) (hx : x < 64) :
    Memory.wf (Memory.write m x v) := by
  refine ⟨?_, fun c hc => ?_⟩
  · have hs := hm.1
    clear hm hx
    induction m with
    | nil => simp [Memory.write]
    | cons d m ih =>
      obtain ⟨hd, hm⟩ := List.pairwise_cons.mp hs
      unfold Memory.write
      split
      · next h =>
        exact List.pairwise_cons.mpr ⟨fun c hc => by
          rcases List.mem_cons.mp hc with rfl | hc
          · exact h
          · exact Nat.lt_trans h (hd c hc), hs⟩
      · split
        · next h => exact List.pairwise_cons.mpr ⟨fun c hc => by simpa [h] using hd c hc, hm⟩
        · next h₁ h₂ =>
          refine List.pairwise_cons.mpr ⟨fun c hc => ?_, ih hm⟩
          rcases Memory.mem_write hc with rfl | hc
          · simp only; omega
          · exact hd c hc
  · rcases Memory.mem_write hc with rfl | hc
    · exact hx
    · exact hm.2 c hc

theorem Memory.wf_nil : Memory.wf [] := ⟨List.Pairwise.nil, fun _ h => nomatch h⟩

/-- A buffer byte after a write to the buffer. -/
theorem State.bufRead_bufWrite (s : State) (z y : BitVec 6) (v : Byte) :
    (s.bufWrite z v).bufRead y = if z = y then v else s.bufRead y := by
  by_cases h : z = y
  · simp [State.bufRead, Memory.read_write, h]
  · simp [State.bufRead, Memory.read_write, h, BitVec.toNat_inj]

/-- A byte reads the same in two states with the same bytes written since the same reset. -/
theorem State.bufRead_congr {s t : State} (hb : t.buf = s.buf) (hd : t.bufDraw = s.bufDraw) (z : BitVec 6) :
    t.bufRead z = s.bufRead z := by
  simp [State.bufRead, hb, hd]

theorem State.bufWrite_wf {s : State} (z : BitVec 6) (v : Byte) (h : Memory.wf s.buf) :
    Memory.wf (s.bufWrite z v).buf :=
  Memory.wf_write v h z.isLt

end Sys2Proof.Machine
end

