-- ==== Sys2Proof/Laws/Exec.lean ====
section
/-! SUPPORT. What a micro-operation can do, said once: the next state it answers (it answers no other outcome), and that
it changes nothing but the lanes, the carry, the cursor and the buffer. -/

namespace Sys2Proof.Machine

/-- The next state of a micro-operation. -/
def effect (i : Instr) (s : State) : State :=
  match i with
  | .adc a b => (s.writeLane a (adcResult (s.lane a) (s.lane b) s.carry)).writeCarry
      (adcCarry (s.lane a) (s.lane b) s.carry)
  | .xor a b => s.writeLane a (s.lane a ^^^ s.lane b)
  | .swap a => s.writeLane a (swapNibbles (s.lane a))
  | .madc a => (s.mixerWriteBack a (adcResult (s.lane a) s.cursorByte s.carry)).writeCarry
      (adcCarry (s.lane a) s.cursorByte s.carry)
  | .msbc a => (s.mixerWriteBack a (sbcResult (s.lane a) s.cursorByte s.carry)).writeCarry
      (sbcBorrow (s.lane a) s.cursorByte s.carry)
  | .mxor a => s.mixerWriteBack a (s.lane a ^^^ s.cursorByte)

theorem exec_eq_next (i : Instr) (s : State) : exec i s = .next (effect i s) := by
  cases i <;> rfl

/-- Fields a micro-operation leaves alone. -/
theorem effect_frame (i : Instr) (s : State) :
    (effect i s).phase = s.phase ∧ (effect i s).outer = s.outer ∧ (effect i s).row = s.row ∧
    (effect i s).k = s.k ∧ (effect i s).i = s.i ∧ (effect i s).iv = s.iv ∧ (effect i s).ie = s.ie ∧
    (effect i s).done = s.done ∧ (effect i s).accerr = s.accerr ∧ (effect i s).rfRom = s.rfRom ∧
    (effect i s).mixRom = s.mixRom ∧ (effect i s).rfVariant = s.rfVariant ∧ (effect i s).rdata = s.rdata ∧
    (effect i s).inputs = s.inputs ∧ (effect i s).draws = s.draws ∧ (effect i s).bufDraw = s.bufDraw := by
  cases i <;> exact ⟨rfl, rfl, rfl, rfl, rfl, rfl, rfl, rfl, rfl, rfl, rfl, rfl, rfl, rfl, rfl, rfl⟩

/-- The same, by the fields' names. -/
theorem effect_shell (i : Instr) (s : State) : SameShell s (effect i s) := by
  obtain ⟨h₁, h₂, h₃, h₄, h₅, h₆, h₇, h₈, h₉, h₁₀, h₁₁, h₁₂, h₁₃, h₁₄, h₁₅, h₁₆⟩ := effect_frame i s
  exact ⟨h₁, h₂, h₃, h₄, h₅, h₆, h₇, h₈, h₉, h₁₀, h₁₁, h₁₂, h₁₃, h₁₄, h₁₅, h₁₆⟩

/-- A micro-operation neither reads nor writes what waits at the host port. -/
theorem effect_inputs (i : Instr) (s : State) (xs : List Input) :
    effect i { s with inputs := xs } = { effect i s with inputs := xs } := by
  cases i <;> rfl

@[simp] theorem State.mixerWriteBack_lanes (s : State) (a : LaneIx) (v : Byte) :
    (s.mixerWriteBack a v).lanes = s.lanes.set a v := rfl
@[simp] theorem State.mixerWriteBack_carry (s : State) (a : LaneIx) (v : Byte) :
    (s.mixerWriteBack a v).carry = s.carry := rfl
@[simp] theorem State.mixerWriteBack_z (s : State) (a : LaneIx) (v : Byte) :
    (s.mixerWriteBack a v).z = s.z + 1 := rfl
@[simp] theorem State.mixerWriteBack_buf (s : State) (a : LaneIx) (v : Byte) :
    (s.mixerWriteBack a v).buf = Memory.write s.buf s.z.toNat v := rfl

/-- The buffer after a mixer write-back: the byte at the old cursor holds the value, every other one is as before. -/
theorem State.bufRead_mixerWriteBack (s : State) (a : LaneIx) (v : Byte) (y : BitVec 6) :
    (s.mixerWriteBack a v).bufRead y = if s.z = y then v else s.bufRead y := by
  rw [← State.bufRead_bufWrite s s.z y v]
  exact State.bufRead_congr rfl rfl y

/-- A round-function micro-operation leaves the buffer and the cursor alone (R110). -/
theorem effect_round {i : Instr} (h : i.isRound = true) (s : State) :
    (effect i s).buf = s.buf ∧ (effect i s).z = s.z := by
  cases i <;> first | exact ⟨rfl, rfl⟩ | cases h

/-- A mixer micro-operation writes one byte, at the cursor, and advances the cursor (R130). -/
theorem effect_mixer {i : Instr} {a : LaneIx} (h : i.mixerLane? = some a) (s : State) :
    ∃ v, (effect i s).buf = Memory.write s.buf s.z.toNat v ∧ (effect i s).lanes = s.lanes.set a v ∧
      (effect i s).z = s.z + 1 := by
  cases i <;> first | (cases h; exact ⟨_, rfl, rfl, rfl⟩) | cases h

theorem Memory.wf_effect {i : Instr} {s : State} (h : Memory.wf s.buf) : Memory.wf (effect i s).buf := by
  cases i <;> first | exact h | exact Memory.wf_write _ h s.z.isLt

end Sys2Proof.Machine
end

