-- ==== Sys2Proof/Laws/HostPort.lean ====
section
/-! SUPPORT. What one host access can do, said once: it never reaches the lanes, the carry, the cursor, the counters or
the ROMs; while the engine is busy it reaches neither the phase nor the IV registers nor the buffer. -/

namespace Sys2Proof.Machine

/-- What no host access changes. -/
structure HostFrame (s t : State) : Prop where
  lanes : t.lanes = s.lanes
  carry : t.carry = s.carry
  outer : t.outer = s.outer
  row : t.row = s.row
  k : t.k = s.k
  i : t.i = s.i
  z : t.z = s.z
  rfRom : t.rfRom = s.rfRom
  mixRom : t.mixRom = s.mixRom
  rfVariant : t.rfVariant = s.rfVariant
  inputs : t.inputs = s.inputs
  bufDraw : t.bufDraw = s.bufDraw

theorem HostFrame.refl (s : State) : HostFrame s s := by constructor <;> rfl

theorem HostFrame.trans {s t u : State} (h : HostFrame s t) (h' : HostFrame t u) : HostFrame s u :=
  ⟨h'.lanes.trans h.lanes, h'.carry.trans h.carry, h'.outer.trans h.outer, h'.row.trans h.row, h'.k.trans h.k,
    h'.i.trans h.i, h'.z.trans h.z, h'.rfRom.trans h.rfRom, h'.mixRom.trans h.mixRom,
    h'.rfVariant.trans h.rfVariant, h'.inputs.trans h.inputs, h'.bufDraw.trans h.bufDraw⟩

theorem State.bufWriteLE_frame (n : Nat) (s : State) (z : BitVec 6) (w : Word32) :
    HostFrame s (s.bufWriteLE z n w) := by
  induction n generalizing s z w with
  | zero => exact .refl s
  | succ n ih => exact HostFrame.trans (by constructor <;> rfl) (ih _ _ _)

theorem State.bufWriteLE_wf {s : State} (h : Memory.wf s.buf) (n : Nat) (z : BitVec 6) (w : Word32) :
    Memory.wf (s.bufWriteLE z n w).buf := by
  induction n generalizing s z w with
  | zero => exact h
  | succ n ih => exact ih (State.bufWrite_wf z _ h) _ _

theorem State.writeCtrl_frame (s : State) (w : Word32) : HostFrame s (s.writeCtrl w) := by
  unfold State.writeCtrl
  split
  · split <;> constructor <;> rfl
  · constructor <;> rfl

theorem State.writeStatus_frame (s : State) (w : Word32) : HostFrame s (s.writeStatus w) := by
  unfold State.writeStatus
  constructor <;> (cases w.getLsbD 1 <;> cases w.getLsbD 2 <;> rfl)

theorem State.hostWrite_frame (s : State) (n : Nat) (w : Word32) (t : Target) : HostFrame s (s.hostWrite n w t) := by
  cases t with
  | ctrl => exact s.writeCtrl_frame w
  | status => exact s.writeStatus_frame w
  | config => exact .refl s
  | reserved => exact .refl s
  | iv m =>
    unfold State.hostWrite
    cases s.busy <;> constructor <;> rfl
  | buf z =>
    unfold State.hostWrite
    cases s.busy
    · exact s.bufWriteLE_frame n z w
    · constructor <;> rfl

theorem State.hostRead_frame (s : State) (size : BitVec 2) (n : Nat) (t : Target) :
    HostFrame s (s.hostRead size n t) := by
  cases t <;> (unfold State.hostRead; cases s.busy <;> constructor <;> rfl)

theorem State.badAccess_frame (s : State) (a : HostAccess) : HostFrame s (s.badAccess a) := by
  unfold State.badAccess
  split <;> constructor <;> rfl

theorem State.hostAccess_frame (s : State) (a : HostAccess) : HostFrame s (s.hostAccess a) := by
  unfold State.hostAccess
  split
  · split
    · exact s.hostWrite_frame _ _ _
    · exact s.hostRead_frame _ _ _
  · exact s.badAccess_frame a

/-! ## Little-endian bytes (R56) -/

theorem lowBytes_lt (n : Nat) (w : Word32) : (lowBytes n w).toNat < 2 ^ (8 * n) := by
  unfold lowBytes
  simp only [BitVec.toNat_setWidth]
  exact Nat.lt_of_le_of_lt (Nat.mod_le _ _) (Nat.mod_lt _ (Nat.two_pow_pos _))

theorem cursor_succ (z : BitVec 6) (j : Nat) : z + BitVec.ofNat 6 (j + 1) = z + 1 + BitVec.ofNat 6 j := by
  apply BitVec.eq_of_toNat_eq
  simp [BitVec.toNat_add]
  omega

/-- Byte `j` of a little-endian read is the buffer byte `j` further on. -/
theorem State.bufReadLE_byte (s : State) {n : Nat} (hn : n ≤ 4) (z : BitVec 6) {j : Nat} (hj : j < n) :
    (s.bufReadLE z n).extractLsb' (8 * j) 8 = s.bufRead (z + BitVec.ofNat 6 j) := by
  induction n generalizing z j with
  | zero => omega
  | succ n ih =>
    unfold State.bufReadLE
    apply BitVec.eq_of_getLsbD_eq
    intro i hi
    cases j with
    | zero =>
      simp [hi]
      omega
    | succ j =>
      rw [cursor_succ, ← ih (by omega) (z + 1) (by omega)]
      have q₁ : ¬ (8 * (j + 1) + i < 8) := by omega
      have q₂ : 8 * (j + 1) + i - 8 = 8 * j + i := by omega
      have q₃ : 8 * (j + 1) + i < 32 := by omega
      simp only [BitVec.getLsbD_extractLsb', hi, decide_true, Bool.true_and, BitVec.getLsbD_or,
        BitVec.getLsbD_setWidth, BitVec.getLsbD_shiftLeft, q₁, decide_false, Bool.not_false, q₂, q₃]
      rw [BitVec.getLsbD_of_ge _ _ (by omega : 8 ≤ 8 * (j + 1) + i)]
      simp

/-- The bits above the access read 0 (R52). -/
theorem State.bufReadLE_lt (s : State) (n : Nat) (z : BitVec 6) : (s.bufReadLE z n).toNat < 2 ^ (8 * n) := by
  induction n generalizing z with
  | zero => simp [State.bufReadLE]
  | succ n ih =>
    unfold State.bufReadLE
    rw [BitVec.toNat_or]
    apply Nat.or_lt_two_pow
    · have := (s.bufRead z).isLt
      have h : 2 ^ 8 ≤ 2 ^ (8 * (n + 1)) := Nat.pow_le_pow_right (by omega) (by omega)
      simp only [BitVec.toNat_setWidth]
      omega
    · have := ih (z + 1)
      simp only [BitVec.toNat_shiftLeft, Nat.shiftLeft_eq]
      calc _ ≤ (s.bufReadLE (z + 1) n).toNat * 2 ^ 8 := Nat.mod_le _ _
        _ < 2 ^ (8 * n) * 2 ^ 8 := by omega
        _ = _ := by rw [← Nat.pow_add]; congr 1

/-- A little-endian write leaves every byte outside it alone. -/
theorem State.bufRead_bufWriteLE_other (n : Nat) (s : State) (z : BitVec 6) (w : Word32) {y : BitVec 6}
    (h : ∀ j < n, y ≠ z + BitVec.ofNat 6 j) : (s.bufWriteLE z n w).bufRead y = s.bufRead y := by
  induction n generalizing s z w with
  | zero => rfl
  | succ n ih =>
    unfold State.bufWriteLE
    rw [ih]
    · rw [State.bufRead_bufWrite, if_neg]
      have := h 0 (by omega)
      simpa using this.symm
    · intro j hj
      rw [← cursor_succ]
      exact h (j + 1) (by omega)

/-- A little-endian write stores byte `j` of its data at the buffer byte `j` further on. -/
theorem State.bufRead_bufWriteLE {n : Nat} (hn : n ≤ 4) (s : State) (z : BitVec 6) (w : Word32) {j : Nat} (hj : j < n) :
    (s.bufWriteLE z n w).bufRead (z + BitVec.ofNat 6 j) = w.extractLsb' (8 * j) 8 := by
  induction n generalizing s z w j with
  | zero => omega
  | succ n ih =>
    unfold State.bufWriteLE
    cases j with
    | zero =>
      rw [State.bufRead_bufWriteLE_other, State.bufRead_bufWrite, if_pos (by simp)]
      · apply BitVec.eq_of_getLsbD_eq
        intro i hi
        simp [hi]
      · intro j hj e
        have := congrArg BitVec.toNat e
        simp [BitVec.toNat_add] at this
        have := z.isLt
        omega
    | succ j =>
      rw [cursor_succ, ih (by omega) _ _ _ (by omega)]
      apply BitVec.eq_of_getLsbD_eq
      intro i hi
      have q : 8 + (8 * j + i) = 8 * (j + 1) + i := by omega
      simp [hi, q]

/-- A buffer write changes nothing but the buffer. -/
theorem State.bufWriteLE_shell (n : Nat) (s : State) (z : BitVec 6) (w : Word32) :
    SameShell s (s.bufWriteLE z n w) := by
  induction n generalizing s z w with
  | zero => constructor <;> rfl
  | succ n ih =>
    have h := ih (s.bufWrite z (w.setWidth 8)) (z + 1) (w >>> 8)
    exact ⟨h.phase, h.outer, h.row, h.k, h.i, h.iv, h.ie, h.done, h.accerr, h.rfRom, h.mixRom, h.rfVariant, h.rdata,
      h.inputs, h.draws, h.bufDraw⟩

/-! ## Small facts of an access -/

theorem State.busy_eq_false (s : State) : s.busy = false ↔ s.phase = .idle := by
  unfold State.busy
  cases s.phase <;> decide

/-- A legal access has a size (R58). -/
theorem HostAccess.legal_size {a : HostAccess} (h : a.legal = true) : ∃ n, sizeBytes a.size = some n := by
  unfold HostAccess.legal at h
  split at h
  · cases h
  · next n hn => exact ⟨n, hn⟩

/-- Every host access keeps the buffer's canonical form. -/
theorem State.hostAccess_wf {s : State} (h : Memory.wf s.buf) (a : HostAccess) : Memory.wf (s.hostAccess a).buf := by
  unfold State.hostAccess
  split
  · split
    · cases target a.addr with
      | ctrl =>
        simp only [State.hostWrite, State.writeCtrl]
        cases s.busy <;> cases a.wdata.getLsbD 0 <;> exact h
      | status =>
        simp only [State.hostWrite, State.writeStatus]
        cases a.wdata.getLsbD 1 <;> cases a.wdata.getLsbD 2 <;> exact h
      | config => exact h
      | reserved => exact h
      | iv m =>
        simp only [State.hostWrite]
        split <;> exact h
      | buf z =>
        simp only [State.hostWrite]
        split
        · exact h
        · exact State.bufWriteLE_wf h _ _ _
    · cases target a.addr <;> simp only [State.hostRead] <;> first | exact h | (cases s.busy <;> exact h)
  · unfold State.badAccess
    split <;> exact h

/-- A reset keeps the buffer's canonical form. -/
theorem State.applyReset_wf (s : State) : Memory.wf s.applyReset.buf := Memory.wf_nil

theorem State.reset_wf : Memory.wf State.reset.buf := Memory.wf_nil

end Sys2Proof.Machine
end

