-- ==== Sys2Proof/Laws/HostProgram.lean ====
section
/-! SUPPORT. Where the bus primitives of a host program land: a register of the window, or buffer bytes. -/

namespace Sys2Proof.Machine

variable (s : State) (w : Word32)

/-- A legal write lands at its target. -/
theorem State.hostAccess_write {a : HostAccess} (hl : a.legal = true) (hw : a.wr = true) {n : Nat}
    (hn : sizeBytes a.size = some n) : s.hostAccess a = s.hostWrite n a.wdata (target a.addr) := by
  simp [State.hostAccess, hl, hw, hn]

/-- A legal read lands at its target. -/
theorem State.hostAccess_read {a : HostAccess} (hl : a.legal = true) (hw : a.wr = false) {n : Nat}
    (hn : sizeBytes a.size = some n) : s.hostAccess a = s.hostRead a.size n (target a.addr) := by
  simp [State.hostAccess, hl, hw, hn]

/-- Legality does not depend on the direction or the data (R58). -/
theorem memWrite_legal (addr n : Nat) : (memWrite addr n w).legal = (memRead addr n).legal := rfl

theorem memWrite_ctrl : s.hostAccess (memWrite 0x00 4 w) = s.writeCtrl w := by
  rw [s.hostAccess_write ((memWrite_legal w 0x00 4).trans (by decide)) rfl rfl,
    show target (memWrite 0x00 4 w).addr = .ctrl from (by decide : target (BitVec.ofNat 7 0x00) = .ctrl)]
  rfl

theorem memWrite_status : s.hostAccess (memWrite 0x04 4 w) = s.writeStatus w := by
  rw [s.hostAccess_write ((memWrite_legal w 0x04 4).trans (by decide)) rfl rfl,
    show target (memWrite 0x04 4 w).addr = .status from (by decide : target (BitVec.ofNat 7 0x04) = .status)]
  rfl

theorem memWrite_config : s.hostAccess (memWrite 0x08 4 w) = s := by
  rw [s.hostAccess_write ((memWrite_legal w 0x08 4).trans (by decide)) rfl rfl,
    show target (memWrite 0x08 4 w).addr = .config from (by decide : target (BitVec.ofNat 7 0x08) = .config)]
  rfl

/-- The IV registers' offsets (R53). -/
theorem target_iv (n : Fin 4) :
    (memRead (0x10 + 4 * n.val) 4).legal = true ∧ target (BitVec.ofNat 7 (0x10 + 4 * n.val)) = .iv n := by
  revert n; decide

theorem memWrite_iv (n : Fin 4) : s.hostAccess (memWrite (0x10 + 4 * n.val) 4 w) = s.hostWrite 4 w (.iv n) :=
  (target_iv n).2 ▸ s.hostAccess_write ((memWrite_legal w _ 4).trans (target_iv n).1) rfl rfl

theorem memRead_ctrl : s.hostAccess (memRead 0x00 4) = s.putRdata s.ctrlWord :=
  s.hostAccess_read (by decide) rfl rfl

theorem memRead_status : s.hostAccess (memRead 0x04 4) = s.putRdata s.statusWord :=
  s.hostAccess_read (by decide) rfl rfl

theorem memRead_config : s.hostAccess (memRead 0x08 4) = s.putRdata s.configWord :=
  s.hostAccess_read (by decide) rfl rfl

theorem memRead_iv (n : Fin 4) : s.hostAccess (memRead (0x10 + 4 * n.val) 4) = s.putRdata s.iv[n] := by
  rw [s.hostAccess_read (target_iv n).1 rfl rfl]
  exact (target_iv n).2 ▸ rfl

/-- The legal accesses to the buffer part (R58) and where they land (R53). -/
theorem legal_buf {addr n : Nat} (hn : n ∈ [1, 2, 4]) (ha : 0x40 ≤ addr) (hb : addr < 0x80) (hm : addr % n = 0)
    (wr : Bool) (w : Word32) :
    HostAccess.legal ⟨wr, BitVec.ofNat 7 addr, sizeCode n, w⟩ = true ∧ sizeBytes (sizeCode n) = some n ∧
      target (BitVec.ofNat 7 addr) = .buf (BitVec.ofNat 6 (addr - 0x40)) := by
  have e : (BitVec.ofNat 7 addr).toNat = addr := by simp only [BitVec.toNat_ofNat]; omega
  have hs : sizeBytes (sizeCode n) = some n := by
    simp only [List.mem_cons, List.not_mem_nil, or_false] at hn
    rcases hn with rfl | rfl | rfl <;> rfl
  refine ⟨?_, hs, ?_⟩
  · unfold HostAccess.legal
    simp only [hs, e]
    rw [if_neg (by omega)]
    simpa using hm
  · unfold target
    simp only [e]
    rw [if_pos ha]

theorem memRead_buf {addr n : Nat} (hn : n ∈ [1, 2, 4]) (ha : 0x40 ≤ addr) (hb : addr < 0x80) (hm : addr % n = 0) :
    s.hostAccess (memRead addr n) = s.hostRead (sizeCode n) n (.buf (BitVec.ofNat 6 (addr - 0x40))) := by
  obtain ⟨hl, hs, ht⟩ := legal_buf hn ha hb hm false 0
  exact ht ▸ s.hostAccess_read hl rfl hs

theorem memWrite_buf {addr n : Nat} (hn : n ∈ [1, 2, 4]) (ha : 0x40 ≤ addr) (hb : addr < 0x80) (hm : addr % n = 0) :
    s.hostAccess (memWrite addr n w) = s.hostWrite n w (.buf (BitVec.ofNat 6 (addr - 0x40))) := by
  obtain ⟨hl, hs, ht⟩ := legal_buf hn ha hb hm true w
  exact ht ▸ s.hostAccess_write hl rfl hs

end Sys2Proof.Machine
end

