-- ==== Sys2Proof/Laws/PerInstr.lean ====
section
/-! SUPPORT. What is said once for every micro-operation as syntax: the fields of its encoded word (R81 to R83). -/

namespace Sys2Proof.Laws.EncodeFields

/-- The encoded word's `RSV` bit is 0, its `A` field names the destination lane, and its `B` field the second lane of
format R, or 0. -/
def Statement (i : Instr) : Prop :=
  rsvField (encode i) = 0 ∧
    match i with
    | .adc a b => laneOf (aField (encode i)) = a ∧ laneOf (bField (encode i)) = b
    | .xor a b => laneOf (aField (encode i)) = a ∧ laneOf (bField (encode i)) = b
    | .swap a => laneOf (aField (encode i)) = a ∧ bField (encode i) = 0
    | .madc a => laneOf (aField (encode i)) = a ∧ bField (encode i) = 0
    | .msbc a => laneOf (aField (encode i)) = a ∧ bField (encode i) = 0
    | .mxor a => laneOf (aField (encode i)) = a ∧ bField (encode i) = 0

theorem adc : ∀ a b : LaneIx, Statement (.adc a b) := by unfold Statement; decide

theorem xor : ∀ a b : LaneIx, Statement (.xor a b) := by unfold Statement; decide

theorem swap : ∀ a : LaneIx, Statement (.swap a) := by unfold Statement; decide

theorem madc : ∀ a : LaneIx, Statement (.madc a) := by unfold Statement; decide

theorem msbc : ∀ a : LaneIx, Statement (.msbc a) := by unfold Statement; decide

theorem mxor : ∀ a : LaneIx, Statement (.mxor a) := by unfold Statement; decide

end Sys2Proof.Laws.EncodeFields
end

