-- ==== Sys2Proof/Laws/Reference.lean ====
section
/-! SUPPORT. A state as the reference function sees it: the buffer as 64 bytes, and that a micro-operation of the engine
is the reference's micro-operation on that view. -/

namespace Sys2Proof.Machine

theorem State.buffer_get (s : State) (z : BitVec 6) : s.buffer[z.toFin] = s.bufRead z := by
  simp [State.buffer]

theorem State.buffer_getElem (s : State) {n : Nat} (h : n < 64) :
    s.buffer[n] = s.bufRead (BitVec.ofFin (w := 6) ⟨n, h⟩) := by
  simp [State.buffer]

theorem State.buffer_congr {s t : State} (h : SameBuffer s t) : t.buffer = s.buffer := by
  unfold State.buffer
  congr 1
  funext z
  exact h _

theorem SameBuffer.of_eq {s t : State} (hb : t.buf = s.buf) (hd : t.bufDraw = s.bufDraw) : SameBuffer s t :=
  fun z => State.bufRead_congr hb hd z

/-- One byte written, all others as before. -/
theorem State.buffer_set {s t : State} {z : BitVec 6} {v : Byte}
    (h : ∀ y, t.bufRead y = if z = y then v else s.bufRead y) : t.buffer = s.buffer.set z.toFin v := by
  apply Vector.ext
  intro i hi
  rw [Vector.getElem_set, t.buffer_getElem hi, s.buffer_getElem hi, h]
  by_cases hz : z = BitVec.ofFin (w := 6) ⟨i, hi⟩
  · subst hz
    simp
  · have : (z.toFin : Nat) ≠ i := by
      intro e
      exact hz (BitVec.eq_of_toNat_eq (by simpa using e))
    rw [if_neg hz, if_neg this]

theorem sbcResult_eq (x y : Byte) (c : Bool) : sbcResult x y c = x - y - BitVec.ofNat 8 c.toNat := by
  apply BitVec.eq_of_toNat_eq
  have hx := x.isLt
  have hy := y.isLt
  cases c <;> simp [sbcResult, diff9, BitVec.toNat_sub, BitVec.toNat_ofInt] <;> omega

/-- A micro-operation of the engine is the reference's on what the reference sees of the state. -/
theorem effect_view (ins : Instr) (s : State) : (effect ins s).view = refExec ins s.view := by
  have hb : s.view.byte = s.bufRead s.z := s.buffer_get s.z
  cases ins with
  | adc a b =>
    simp only [State.view, refExec, effect, RefState.mk.injEq]
    refine ⟨?_, ?_, rfl, rfl⟩
    · simp [State.lane, adcResult, sum9, u8]
    · simp [adcCarry_eq, State.lane]
      rfl
  | xor a b => rfl
  | swap a =>
    simp only [State.view, refExec, effect, RefState.mk.injEq]
    exact ⟨by simp [State.lane, swapNibbles_eq_shift], rfl, rfl, rfl⟩
  | madc a =>
    have hw := fun v c => State.buffer_set (t := (s.mixerWriteBack a v).writeCarry c)
      (fun y => State.bufRead_mixerWriteBack s a v y)
    simp only [refExec, hb, RefState.mix]
    simp only [State.view, effect, hw]
    simp [State.lane, adcResult, sum9, u8, adcCarry_eq, State.cursorByte]
    rfl
  | msbc a =>
    have hw := fun v c => State.buffer_set (t := (s.mixerWriteBack a v).writeCarry c)
      (fun y => State.bufRead_mixerWriteBack s a v y)
    simp only [refExec, hb, RefState.mix]
    simp only [State.view, effect, hw]
    simp [State.lane, sbcResult_eq, sbcBorrow_eq, State.cursorByte]
    rfl
  | mxor a =>
    have hw := fun v => State.buffer_set (t := s.mixerWriteBack a v)
      (fun y => State.bufRead_mixerWriteBack s a v y)
    simp only [refExec, hb, RefState.mix]
    simp only [State.view, effect, hw]
    simp [State.lane, State.cursorByte]

end Sys2Proof.Machine
end

