-- ==== Sys2Proof/Laws/Rom.lean ====
section
/-! SUPPORT. What a well-formed ROM gives: as many micro-operations as words, each of the kind its ROM holds, and the
same answers as decoding the words one by one. -/

namespace Sys2Proof.Machine

theorem decodeAll_length {rom : List MicroWord} {t : List Instr} (h : decodeAll rom = some t) :
    t.length = rom.length := by
  induction rom generalizing t with
  | nil => cases h; rfl
  | cons u us ih =>
    unfold decodeAll at h
    split at h
    · next hus => cases h; simp [ih hus]
    · cases h

theorem decodeAll_getElem? {rom : List MicroWord} {t : List Instr} (h : decodeAll rom = some t) (n : Nat) (i : Instr) :
    t[n]? = some i ↔ ∃ u, rom[n]? = some u ∧ decode u = .ok i := by
  induction rom generalizing t n with
  | nil => cases h; simp
  | cons u us ih =>
    unfold decodeAll at h
    split at h
    · next hu hus =>
      cases h
      cases n with
      | zero => simp [hu]
      | succ n => simpa using ih hus n
    · cases h

/-- A ROM decodes when every word of it does (R84). -/
theorem decodeAll_isSome (rom : List MicroWord) :
    (decodeAll rom).isSome = true ↔ ∀ u ∈ rom, ∃ i, decode u = .ok i := by
  induction rom with
  | nil => simp [decodeAll]
  | cons u us ih =>
    unfold decodeAll
    cases hu : decode u with
    | error e => simp [hu]
    | ok i =>
      simp only [List.forall_mem_cons, hu, ← ih]
      cases decodeAll us <;> simp

theorem rfProgram_eq_some {rom : List MicroWord} {t : List Instr} :
    rfProgram rom = some t ↔ decodeAll rom = some t ∧ RfTable.wf t = true := by
  simp [rfProgram, Option.filter_eq_some_iff]

theorem mixProgram_eq_some {rom : Vector MicroWord 16} {t : List Instr} :
    mixProgram rom = some t ↔ decodeAll rom.toList = some t ∧ MixTable.wf t = true := by
  simp [mixProgram, Option.filter_eq_some_iff]

theorem rfProgram_length {rom : List MicroWord} {t : List Instr} (h : rfProgram rom = some t) :
    t.length = rom.length :=
  decodeAll_length (rfProgram_eq_some.mp h).1

/-- The length of a well-formed round-function ROM fits the counter `k` and the field `CONFIG.RF_LEN` (R26, R37). -/
theorem rfProgram_length_le {rom : List MicroWord} {t : List Instr} (h : rfProgram rom = some t) :
    rom.length ≤ 255 := by
  have hw := (rfProgram_eq_some.mp h).2
  simp only [RfTable.wf, Bool.and_eq_true, decide_eq_true_eq] at hw
  exact rfProgram_length h ▸ hw.1

/-- Every micro-operation of a well-formed round-function ROM is an ADC, XOR or SWAP (R86). -/
theorem rfProgram_isRound {rom : List MicroWord} {t : List Instr} (h : rfProgram rom = some t) {n : Nat} {i : Instr}
    (hi : t[n]? = some i) : i.isRound = true := by
  have hw := (rfProgram_eq_some.mp h).2
  simp only [RfTable.wf, Bool.and_eq_true, List.all_eq_true] at hw
  exact hw.2 i (List.mem_of_getElem? hi)

theorem mixProgram_length {rom : Vector MicroWord 16} {t : List Instr} (h : mixProgram rom = some t) :
    t.length = 16 := by
  simpa using decodeAll_length (mixProgram_eq_some.mp h).1

/-- Entry `n` of a well-formed mixer ROM is of format M with lane `n` (R90). -/
theorem mixProgram_lane {rom : Vector MicroWord 16} {t : List Instr} (h : mixProgram rom = some t) (n : Fin 16) {i : Instr}
    (hi : t[n.val]? = some i) : i.mixerLane? = some n := by
  have hw := (mixProgram_eq_some.mp h).2
  simp only [MixTable.wf, beq_iff_eq] at hw
  have hn : (t.map Instr.mixerLane?)[n.val]? = some i.mixerLane? := by simp [hi]
  rw [hw] at hn
  simpa using hn.symm

/-- The built chip's table is well-formed (R86), whichever the variant selects. -/
theorem rfTable_wf : RfTable.wf Config.rfTable = true := by
  have h := (@Config.rfOpen Config.rfWitness).property
  unfold Config.rfTable
  split
  · exact h.1
  · exact h.2.1
  · exact h.2.2.1

end Sys2Proof.Machine
end

