-- ==== Sys2Proof/Laws/Step.lean ====
section
/-! SUPPORT. What one engine step can do, said once: one equation per phase, and the four cases a next state comes from. -/

namespace Sys2Proof.Machine

theorem engineStep_idle {s : State} (h : s.phase = .idle) : engineStep s = .next s := by
  simp [engineStep, h]

theorem engineStep_init {s : State} (h : s.phase = .init) (hr : (rfProgram s.rfRom).isSome = true)
    (hm : (mixProgram s.mixRom).isSome = true) : engineStep s = .next s.initStep := by
  obtain ⟨t, ht⟩ := Option.isSome_iff_exists.mp hr
  obtain ⟨m, hm⟩ := Option.isSome_iff_exists.mp hm
  simp [engineStep, h, runInit, ht, hm]

theorem engineStep_rf {s : State} {t : List Instr} {ins : Instr} (h : s.phase = .rf)
    (ht : rfProgram s.rfRom = some t) (hi : t[s.k.toNat]? = some ins) :
    engineStep s = .next (effect ins s).afterRf := by
  simp only [engineStep, h, State.fetchRf, ht, hi, runMicroOp, exec_eq_next, andThen]

theorem engineStep_mix {s : State} {t : List Instr} {ins : Instr} (h : s.phase = .mix)
    (ht : mixProgram s.mixRom = some t) (hi : t[s.i.toNat]? = some ins) :
    engineStep s = .next (effect ins s).afterMix := by
  simp only [engineStep, h, State.fetchMix, ht, Option.bind_some, hi, runMicroOp, exec_eq_next, andThen]

/-- Everything an engine step can do when it answers a next state (R152). -/
theorem engineStep_cases {s t : State} (h : engineStep s = .next t) :
    (s.phase = .idle ∧ t = s) ∨
    (s.phase = .init ∧ (rfProgram s.rfRom).isSome = true ∧ (mixProgram s.mixRom).isSome = true ∧ t = s.initStep) ∨
    (s.phase = .rf ∧ ∃ p ins, rfProgram s.rfRom = some p ∧ p[s.k.toNat]? = some ins ∧ t = (effect ins s).afterRf) ∨
    (s.phase = .mix ∧ ∃ p ins, mixProgram s.mixRom = some p ∧ p[s.i.toNat]? = some ins ∧
      t = (effect ins s).afterMix) := by
  unfold engineStep at h
  split at h
  · next hp => exact .inl ⟨hp, by cases h; rfl⟩
  · next hp =>
    unfold runInit at h
    split at h
    · cases h
    · split at h
      · cases h
      · next hr hm =>
        cases h
        exact .inr (.inl ⟨hp, by simpa [Option.isSome_iff_ne_none] using hr,
          by simpa [Option.isSome_iff_ne_none] using hm, rfl⟩)
  · next hp =>
    refine .inr (.inr (.inl ⟨hp, ?_⟩))
    unfold State.fetchRf runMicroOp at h
    split at h
    · cases h
    · next ins hf =>
      split at hf
      · cases hf
      · next p hr =>
        split at hf
        · cases hf
        · next hi =>
          cases hf
          rw [exec_eq_next] at h
          cases h
          exact ⟨p, _, hr, hi, rfl⟩
  · next hp =>
    refine .inr (.inr (.inr ⟨hp, ?_⟩))
    unfold State.fetchMix runMicroOp at h
    split at h
    · cases h
    · next ins hf =>
      split at hf
      · cases hf
      · next hb =>
        cases hf
        obtain ⟨p, hr, hi⟩ := Option.bind_eq_some_iff.mp hb
        rw [exec_eq_next] at h
        cases h
        exact ⟨p, _, hr, hi, rfl⟩

theorem step_nil {s : State} (h : s.inputs = []) : step s = engineStep (s.beginStep []) := by
  simp [step, h]

theorem step_cons {s : State} {e : Input} {rest : List Input} (h : s.inputs = e :: rest) :
    step s = takeInput e (s.beginStep rest) := by
  simp [step, h]

/-! ## The sequencer's moves leave everything but the sequencer alone -/

/-- What no move of the sequencer changes. -/
structure SameData (s t : State) : Prop where
  lanes : t.lanes = s.lanes
  carry : t.carry = s.carry
  iv : t.iv = s.iv
  buf : t.buf = s.buf
  ie : t.ie = s.ie
  accerr : t.accerr = s.accerr
  rfRom : t.rfRom = s.rfRom
  mixRom : t.mixRom = s.mixRom
  rfVariant : t.rfVariant = s.rfVariant
  rdata : t.rdata = s.rdata
  inputs : t.inputs = s.inputs
  draws : t.draws = s.draws
  bufDraw : t.bufDraw = s.bufDraw

theorem State.startRow_same (s : State) : SameData s s.startRow := by constructor <;> rfl

theorem State.afterRf_same (s : State) : SameData s s.afterRf := by
  unfold State.afterRf
  split <;> constructor <;> rfl

theorem State.endOfRow_same (s : State) : SameData s s.endOfRow := by
  unfold State.endOfRow
  split
  · constructor <;> rfl
  · split <;> constructor <;> rfl

theorem State.afterMix_same (s : State) : SameData s s.afterMix := by
  unfold State.afterMix
  split
  · constructor <;> rfl
  · exact s.endOfRow_same

theorem State.afterRf_z_done (s : State) : s.afterRf.z = s.z ∧ s.afterRf.done = s.done := by
  unfold State.afterRf
  split <;> exact ⟨rfl, rfl⟩

/-! ## What no engine step changes, and the cases of a machine step -/

/-- No engine step changes the access error bit, IE, the IV registers, the ROMs, or the host port. -/
theorem engineStep_frame {s t : State} (h : engineStep s = .next t) :
    t.accerr = s.accerr ∧ t.ie = s.ie ∧ t.iv = s.iv ∧ SameBuild s t ∧ t.inputs = s.inputs ∧ t.rdata = s.rdata := by
  rcases engineStep_cases h with ⟨_, rfl⟩ | ⟨_, _, _, rfl⟩ | ⟨_, p, ins, _, _, rfl⟩ | ⟨_, p, ins, _, _, rfl⟩
  · exact ⟨rfl, rfl, rfl, ⟨rfl, rfl, rfl⟩, rfl, rfl⟩
  · exact ⟨by simp, by simp, by simp, ⟨by simp, by simp, by simp⟩, by simp, by simp⟩
  · have f := (effect ins s).afterRf_same
    have g := effect_shell ins s
    exact ⟨f.accerr.trans g.accerr, f.ie.trans g.ie, f.iv.trans g.iv,
      ⟨f.rfRom.trans g.rfRom, f.mixRom.trans g.mixRom, f.rfVariant.trans g.rfVariant⟩, f.inputs.trans g.inputs,
      f.rdata.trans g.rdata⟩
  · have f := (effect ins s).afterMix_same
    have g := effect_shell ins s
    exact ⟨f.accerr.trans g.accerr, f.ie.trans g.ie, f.iv.trans g.iv,
      ⟨f.rfRom.trans g.rfRom, f.mixRom.trans g.mixRom, f.rfVariant.trans g.rfVariant⟩, f.inputs.trans g.inputs,
      f.rdata.trans g.rdata⟩

/-- Every engine step keeps the buffer's canonical form. -/
theorem engineStep_wf {s t : State} (h : engineStep s = .next t) (hw : Memory.wf s.buf) : Memory.wf t.buf := by
  rcases engineStep_cases h with ⟨_, rfl⟩ | ⟨_, _, _, rfl⟩ | ⟨_, p, ins, _, _, rfl⟩ | ⟨_, p, ins, _, _, rfl⟩
  · exact hw
  · simpa using hw
  · rw [(effect ins s).afterRf_same.buf]
    exact Memory.wf_effect hw
  · rw [(effect ins s).afterMix_same.buf]
    exact Memory.wf_effect hw

/-- Everything a machine step can be: an engine step, a host access or a reset (R66, R220). -/
theorem step_cases {s t : State} (h : step s = .next t) :
    (∃ rest, engineStep (s.beginStep rest) = .next t) ∨
    ∃ e rest, s.inputs = e :: rest ∧
      ((∃ a, e = .access a ∧ t = (s.beginStep rest).hostAccess a) ∨
        (∃ p, e = .rst p ∧ t = (s.beginStep rest).applyReset)) := by
  cases hi : s.inputs with
  | nil =>
    rw [step_nil hi] at h
    exact .inl ⟨[], h⟩
  | cons e rest =>
    rw [step_cons hi] at h
    cases e with
    | engine => exact .inl ⟨rest, h⟩
    | access a =>
      cases h
      exact .inr ⟨_, _, rfl, .inl ⟨a, rfl, rfl⟩⟩
    | rst p =>
      cases h
      exact .inr ⟨_, _, rfl, .inr ⟨p, rfl, rfl⟩⟩

end Sys2Proof.Machine
end

