-- ==== Sys2Proof/Laws/Run.lean ====
section
/-! SUPPORT. Runs: how they are put together, that a run of the machine is the host's run of the core, and what a run of
accesses followed by engine steps looks like one step at a time. -/

namespace Sys2Proof.Machine

theorem RunsTo.one {n : Nat} {s t u : State} (h : step s = .next t) (h' : RunsTo n t u) : RunsTo (n + 1) s u :=
  ⟨t, h, h'⟩

theorem RunsTo.trans {m n : Nat} {s t u : State} (h : RunsTo m s t) (h' : RunsTo n t u) : RunsTo (m + n) s u := by
  induction m generalizing s with
  | zero => cases h; simpa using h'
  | succ m ih =>
    obtain ⟨v, hv, h⟩ := h
    rw [show m + 1 + n = (m + n) + 1 by omega]
    exact .one hv (ih h)

theorem core_run_succ (M : Host.Core) (n : Nat) (s t : M.State) (h : M.step s = .next t) :
    M.run (n + 1) s = M.run n t := by
  simp only [Host.Core.run, h]

/-- A run in the sense of claims is a run of the host's interface. -/
theorem RunsTo.core_run {n : Nat} {s t : State} (h : RunsTo n s t) : Sys2Proof.core.run n s = .next t := by
  induction n generalizing s with
  | zero => cases h; rfl
  | succ n ih =>
    obtain ⟨u, hu, h⟩ := h
    exact (core_run_succ Sys2Proof.core n s u hu).trans (ih h)

theorem engineRun_one {n : Nat} {s t u : State} (h : engineStep s = .next t) (h' : engineRun n t = .next u) :
    engineRun (n + 1) s = .next u := by
  unfold engineRun
  rw [h]
  exact h'

theorem engineRun_trans {m n : Nat} {s t u : State} (h : engineRun m s = .next t) (h' : engineRun n t = .next u) :
    engineRun (m + n) s = .next u := by
  induction m generalizing s with
  | zero => cases h; simpa using h'
  | succ m ih =>
    unfold engineRun at h
    split at h
    · next v hv =>
      rw [show m + 1 + n = (m + n) + 1 by omega]
      exact engineRun_one hv (ih h)
    · cases h
    · cases h

/-- A step that takes a host access. -/
theorem step_access (s : State) (a : HostAccess) (rest : List Input) :
    step { s with inputs := .access a :: rest } =
      .next (State.hostAccess { s with rdata := none, inputs := rest } a) := by
  rw [step_cons (rest := rest) rfl]
  rfl

end Sys2Proof.Machine
end

