-- ==== Sys2Proof/Tests/Slice0.lean ====
section
/-! SUPPORT. Tests. Expected values come from spec/95_test_vectors.md (the vector's number stands by each) or from the
spec's rules; and for every obligation that has hypotheses, a state and operands that meet them. -/

namespace Sys2Proof.Tests

open Sys2Proof Sys2Proof.Machine

/-! ## A small state -/

/-- The test table `T1` of spec/95_test_vectors.md. -/
def t1 : List MicroWord := [0x001, 0x420, 0x230, 0x0F3]

/-- An idle engine with everything at zero and the empty table `T0`. -/
def base : State where
  lanes := Vector.replicate 16 0
  carry := false
  phase := .idle
  outer := 0
  row := 0
  k := 0
  i := 0
  z := 0
  iv := Vector.replicate 4 0
  buf := []
  ie := false
  done := false
  accerr := false
  rfRom := []
  mixRom := mixRomListing
  rfVariant := .custom
  rdata := none
  inputs := []
  draws := 0
  bufDraw := 0

/-- `base` with lanes 0 and 1, the carry, and the buffer byte at the cursor. -/
def opState (x y : Byte) (c : Bool) (z : BitVec 6) (b : Byte) : State :=
  { base with lanes := (base.lanes.set 0 x).set 1 y, carry := c, z := z, buf := [(z.toNat, b)] }

/-- Read something of the next state, none at a stop. -/
def look {α : Type} (o : Host.Outcome State Fault Refusal) (f : State → α) : Option α :=
  match o with
  | .next s => some (f s)
  | .fault _ => none
  | .refused _ => none

/-- The host's read data after one access. -/
def readAfter (s : State) (a : HostAccess) : Option Word32 := (s.hostAccess a).rdata

/-! ## Well-formedness refuses ill-formed terms -/

theorem test_rfTable_too_long : RfTable.wf (List.replicate 256 (.swap 0)) = false := by
  unfold RfTable.wf
  rw [List.length_replicate]
  rfl
theorem test_rfTable_format_m : RfTable.wf [.adc 0 1, .madc 0] = false := by decide
theorem test_rfTable_t1 : RfTable.wf [.adc 0 1, .swap 2, .xor 3 0, .adc 15 3] = true := by decide
theorem test_mixTable_short : MixTable.wf (mixSchedule.take 15) = false := by decide
theorem test_mixTable_wrong_lane : MixTable.wf (mixSchedule.set 1 (.msbc 2)) = false := by decide
theorem test_mixTable_round_op : MixTable.wf (mixSchedule.set 15 (.swap 15)) = false := by decide
theorem test_rfRom_reserved_word : rfProgram [0x001, 0x300] = none := by decide
theorem test_mixRom_reserved_word : mixProgram (mixRomListing.set 0 0xE00) = none := by decide
theorem test_variant_reserved : RfVariant.ofCode? 3 = none := by decide

/-! ## Decoding, words from spec/95_test_vectors.md section 2.8 -/

theorem test_decode_adc : decode 0b000_0_0000_0001 = .ok (.adc 0 1) := by decide -- V80
theorem test_decode_adc_lanes : decode 0b000_0_1111_0011 = .ok (.adc 15 3) := by decide -- V81
theorem test_decode_xor : decode 0b001_0_0101_0101 = .ok (.xor 5 5) := by decide -- V82
theorem test_decode_swap : decode 0b010_0_0010_0000 = .ok (.swap 2) := by decide -- V84
theorem test_decode_swap_b : decode 0b010_0_0010_0001 = .error .reservedB := by decide -- V85
theorem test_decode_madc : decode 0b100_0_0000_0000 = .ok (.madc 0) := by decide -- V86
theorem test_decode_msbc : decode 0b101_0_1111_0000 = .ok (.msbc 15) := by decide -- V87
theorem test_decode_mxor : decode 0b110_0_1011_0000 = .ok (.mxor 11) := by decide -- V88
theorem test_decode_op3 : decode 0b011_0_0000_0000 = .error .reservedOp := by decide -- V89
theorem test_decode_op7 : decode 0b111_0_0000_0000 = .error .reservedOp := by decide -- V90
theorem test_decode_rsv : decode 0b000_1_0000_0000 = .error .reservedRsv := by decide -- V91
theorem test_decode_madc_b : decode 0b100_0_0000_0001 = .error .reservedB := by decide -- V92
theorem test_decodeTableWord : decodeTableWord 16 0x0F3 = some (.adc 15 3) := by decide
theorem test_decodeTableWord_high : decodeTableWord 16 0x1001 = none := by decide

/-! ## The micro-operations -/

theorem test_adc_sum_256 : look (exec (.adc 0 1) (opState 0x7F 0x80 true 0 0)) (fun t => (t.lanes[0], t.carry)) =
    some (0x00, true) := by decide -- V15
theorem test_adc_doubling : look (exec (.adc 0 0) (opState 0x81 0 true 0 0)) (fun t => (t.lanes[0], t.carry)) =
    some (0x03, true) := by decide -- V18
theorem test_xor_keeps_carry : look (exec (.xor 0 1) (opState 0x5A 0xFF true 0 0)) (fun t => (t.lanes[0], t.carry)) =
    some (0xA5, true) := by decide -- V21
theorem test_xor_same_lane : look (exec (.xor 0 0) (opState 0x37 0 true 0 0)) (fun t => (t.lanes[0], t.carry)) =
    some (0x00, true) := by decide -- V24
theorem test_swap : look (exec (.swap 0) (opState 0x12 0 true 0 0)) (fun t => (t.lanes[0], t.carry)) =
    some (0x21, true) := by decide -- V31
theorem test_madc_carry : look (exec (.madc 0) (opState 0xFF 0 true 5 0x00))
    (fun t => (t.lanes[0], t.bufRead 5, t.carry, t.z)) = some (0x00, 0x00, true, 6) := by decide -- V41
theorem test_madc_last_byte : look (exec (.madc 0) (opState 0xFF 0 true 63 0xFF))
    (fun t => (t.lanes[0], t.bufRead 63, t.carry, t.z)) = some (0xFF, 0xFF, true, 0) := by decide -- V42, V60
theorem test_msbc_minimum : look (exec (.msbc 0) (opState 0x00 0 true 5 0xFF))
    (fun t => (t.lanes[0], t.bufRead 5, t.carry, t.z)) = some (0x00, 0x00, true, 6) := by decide -- V51
theorem test_msbc_no_borrow : look (exec (.msbc 0) (opState 0x10 0 true 5 0x0F))
    (fun t => (t.lanes[0], t.bufRead 5, t.carry, t.z)) = some (0x00, 0x00, false, 6) := by decide -- V47
theorem test_mxor : look (exec (.mxor 0) (opState 0x12 0 true 5 0xFF))
    (fun t => (t.lanes[0], t.bufRead 5, t.carry, t.z)) = some (0xED, 0xED, true, 6) := by decide -- V53

/-! ## Lane initialisation, the host port, reset -/

theorem test_initLanes : initLanes #v[0xDEADBEEF, 0x01234567, 0x89ABCDEF, 0xFFFFFFFF] =
    #v[0xFF, 0xFF, 0xFF, 0xFF, 0xEF, 0xCD, 0xAB, 0x89, 0x67, 0x45, 0x23, 0x01, 0xEF, 0xBE, 0xAD, 0xDE] := by
  decide -- V3
theorem test_start : let t := base.hostAccess (memWrite 0x00 4 3)
    (t.ie, t.phase, readAfter t (memRead 0x04 4)) = (true, .init, some 1) := by decide -- V100
theorem test_start_busy :
    let t := ({ base with phase := .mix, ie := true } : State).hostAccess (memWrite 0x00 4 1)
    (t.ie, t.phase, readAfter t (memRead 0x04 4)) = (false, .mix, some 5) := by decide -- V101
theorem test_busy_write : let t := ({ base with phase := .mix } : State).hostAccess (memWrite 0x45 1 0xAA)
    (t.buf, t.accerr) = ([], true) := by decide -- V102
theorem test_misaligned : (base.hostAccess (memRead 0x42 4)).accerr = true := by decide -- V105
theorem test_narrow_register : (base.hostAccess (memRead 0x08 1)).accerr = true := by decide -- V106
theorem test_reserved : (readAfter base (memRead 0x20 4), (base.hostAccess (memRead 0x20 4)).accerr) =
    (some 0, false) := by decide -- V107
theorem test_w1c : readAfter (({ base with done := true, accerr := true } : State).hostAccess (memWrite 0x04 4 4))
    (memRead 0x04 4) = some 2 := by decide -- V108
theorem test_irq : let s : State := { base with ie := true, done := true }
    (s.irq, (s.hostAccess (memWrite 0x04 4 2)).irq) = (true, false) := by decide -- V109
theorem test_config : readAfter { base with rfRom := List.replicate 34 0x400, rfVariant := .a } (memRead 0x08 4) =
    some 0x22 := by decide -- V110
theorem test_word_read : readAfter { base with buf := [(4, 0x11), (5, 0x22), (6, 0x33), (7, 0x44)] }
    (memRead 0x44 4) = some 0x44332211 := by decide -- V111
theorem test_half_read : readAfter { base with buf := [(4, 0x11), (5, 0x22), (6, 0x33), (7, 0x44)] }
    (memRead 0x46 2) = some 0x4433 := by decide -- V112
theorem test_size3_write : let t := base.hostAccess (memWrite 0x40 8 0)
    (t.buf, t.accerr) = ([], true) := by decide -- V113
theorem test_memory_order : Memory.write (Memory.write (Memory.write [] 9 1) 3 2) 9 4 = [(3, 2), (9, 4)] := by decide
theorem test_asm : parseLine "MSBC r23, [Z+] ; last".toList = .op (.msbc 15) := by decide
theorem test_assemble_t1 :
    (assemble ["; T1".toList, "adc L0, L1".toList, "swap r10".toList, "xor L3, L0".toList, "adc r23, r11".toList]).map
      romOf = some t1 := by decide -- T1, P1
theorem test_asm_bad : parseLine "swap L16".toList = .bad := by decide

/-! ## Every micro-operation runs as the first instruction after reset -/

theorem test_first_adc : (look (step (State.reset.withFetchWord 16 0x001)) State.phase) = some .mix := by decide
theorem test_first_xor : (look (step (State.reset.withFetchWord 16 0x230)) State.phase) = some .mix := by decide
theorem test_first_swap : (look (step (State.reset.withFetchWord 16 0x420)) State.phase) = some .mix := by decide
theorem test_first_madc : (look (step (State.reset.withFetchWord 16 0x800)) State.i) = some 1 := by decide
theorem test_first_msbc : (look (step (State.reset.withFetchWord 16 0xA10)) State.i) = some 2 := by decide
theorem test_first_mxor : (look (step (State.reset.withFetchWord 16 0xC20)) State.i) = some 3 := by decide

/-! ## Witnesses: for each obligation with hypotheses, a state and operands that meet them, one per clause -/

/-- In `RF` with `T1`, the cursor and the counters as the spec has them in row 2. -/
def rfState (k : BitVec 8) : State := { base with phase := .rf, rfRom := t1, k := k, row := 2, z := 32 }

/-- In `MIX` with the empty table. -/
def mixState (outer : BitVec 3) (row : BitVec 2) (i : BitVec 4) : State :=
  { base with phase := .mix, outer := outer, row := row, i := i, z := BitVec.ofNat 6 (16 * row.toNat + i.toNat) }

/-- `T1` as micro-operations. -/
def t1Ops : List Instr := [.adc 0 1, .swap 2, .xor 3 0, .adc 15 3]

theorem wit_MixerWritesLaneAndBufferAlike :
    (Instr.madc 3).mixerLane? = some 3 ∧ (Instr.msbc 15).mixerLane? = some 15 ∧ (Instr.mxor 0).mixerLane? = some 0 := by
  decide

theorem wit_CarryUntouchedByXorSwapMxor :
    ((∀ a b, Instr.xor 1 2 ≠ .adc a b) ∧ (∀ a, Instr.xor 1 2 ≠ .madc a) ∧ ∀ a, Instr.xor 1 2 ≠ .msbc a) ∧
    ((∀ a b, Instr.mxor 1 ≠ .adc a b) ∧ (∀ a, Instr.mxor 1 ≠ .madc a) ∧ ∀ a, Instr.mxor 1 ≠ .msbc a) := by
  decide

theorem wit_InitLoadsLanesAndCarry :
    (let s : State := { base with phase := .init, rfRom := t1 }
     s.phase = .init ∧ (rfProgram s.rfRom).isSome = true ∧ (mixProgram s.mixRom).isSome = true) ∧
    (let s : State := { base with phase := .init }
     s.phase = .init ∧ (rfProgram s.rfRom).isSome = true ∧ (mixProgram s.mixRom).isSome = true) := by
  decide

theorem wit_RoundStepAdvancesK :
    (rfProgram (rfState 0).rfRom = some t1Ops ∧ (rfState 0).phase = .rf ∧
      t1Ops[(rfState 0).k.toNat]? = some (.adc 0 1) ∧ (rfState 0).k.toNat + 1 < t1Ops.length) ∧
    (rfProgram (rfState 3).rfRom = some t1Ops ∧ (rfState 3).phase = .rf ∧
      t1Ops[(rfState 3).k.toNat]? = some (.adc 15 3) ∧ (rfState 3).k.toNat + 1 = t1Ops.length) := by
  decide

theorem wit_MixerStepAdvancesI :
    mixProgram (mixState 0 0 14).mixRom = some mixSchedule ∧ (mixState 0 0 14).phase = .mix ∧
      mixSchedule[(mixState 0 0 14).i.toNat]? = some (.madc 14) ∧ (mixState 0 0 14).i.toNat < 15 := by
  decide

theorem wit_EndOfRowStartsNextRowOrRound :
    mixProgram (mixState 0 2 15).mixRom = some mixSchedule ∧ mixSchedule[15]? = some (.msbc 15) ∧
      ((mixState 0 2 15).phase = .mix ∧ (mixState 0 2 15).i = 15 ∧ (mixState 0 2 15).row.toNat < 3) ∧
      ((mixState 6 3 15).phase = .mix ∧ (mixState 6 3 15).i = 15 ∧ (mixState 6 3 15).row = 3 ∧
        (mixState 6 3 15).outer.toNat < 7) ∧
      ((mixState 7 3 15).phase = .mix ∧ (mixState 7 3 15).i = 15 ∧ (mixState 7 3 15).row = 3 ∧
        (mixState 7 3 15).outer = 7 ∧ (mixState 7 3 15).z.toNat = 16 * (mixState 7 3 15).row.toNat + 15) := by
  decide

theorem wit_LastMixerStepEndsInvocation :
    mixProgram (mixState 7 3 15).mixRom = some mixSchedule ∧ mixSchedule[15]? = some (.msbc 15) ∧
      (mixState 7 3 15).phase = .mix ∧ (mixState 7 3 15).i = 15 ∧ (mixState 7 3 15).row = 3 ∧
      (mixState 7 3 15).outer = 7 := by
  decide

theorem wit_IdleEngineHoldsAllState : base.phase = .idle := by decide

theorem wit_StepTakesTheNextInput :
    base.inputs = [] ∧
    ({ base with inputs := [.engine] } : State).inputs = .engine :: [] ∧
    ({ base with inputs := [.access startWrite] } : State).inputs = .access startWrite :: [] ∧
    ({ base with inputs := [.rst none] } : State).inputs = .rst none :: [] := by
  decide

theorem wit_StepRunsTheDecodedMicroOp :
    ((rfState 3).inputs = [] ∧ (rfProgram (rfState 3).rfRom).isSome = true ∧
      (mixProgram (rfState 3).mixRom).isSome = true ∧ (rfState 3).phase = .rf ∧
      (rfState 3).rfRom[(rfState 3).k.toNat]? = some 0x0F3 ∧ decode 0x0F3 = .ok (.adc 15 3)) ∧
    ((mixState 7 3 15).inputs = [] ∧ (rfProgram (mixState 7 3 15).rfRom).isSome = true ∧
      (mixProgram (mixState 7 3 15).mixRom).isSome = true ∧ (mixState 7 3 15).phase = .mix ∧
      decode (mixState 7 3 15).mixRom[(mixState 7 3 15).i.toFin] = .ok (.msbc 15)) := by
  decide

theorem wit_LegalAccessesAreTheListedOnes :
    (memRead 0x3C 4).legal = true ∧ (memRead 0x7C 4).legal = true ∧ (memRead 0x7E 2).legal = true ∧
      (memRead 0x7F 1).legal = true ∧ (memRead 0x7F 2).legal = false ∧ (memRead 0x3F 1).legal = false ∧
      (memRead 0x40 8).legal = false := by
  decide

theorem wit_RegisterWindowMap :
    target 0x0C = .reserved ∧ target 0x0F = .reserved ∧ target 0x20 = .reserved ∧ target 0x3F = .reserved ∧
      target 0x40 = .buf 0 ∧ target 0x7F = .buf 63 := by
  decide

theorem wit_StartWhenIdle : base.busy = false ∧ (3 : Word32).getLsbD 0 = true := by decide

theorem wit_StartWhileBusyIsRefused : (rfState 0).busy = true ∧ (1 : Word32).getLsbD 0 = true := by decide

theorem wit_CtrlWriteWithoutStart : (2 : Word32).getLsbD 0 = false := by decide

theorem wit_ControlRegisterReads : (rfState 0).rfRom.length ≤ 255 := by decide

theorem wit_IvRegisterAccess : base.busy = false ∧ (rfState 0).busy = true := by decide

theorem wit_BufferReadIsLittleEndian :
    base.busy = false ∧
    (1 ∈ [1, 2, 4] ∧ 0x40 ≤ 0x7F ∧ 0x7F < 0x80 ∧ 0x7F % 1 = 0) ∧
    (2 ∈ [1, 2, 4] ∧ 0x40 ≤ 0x7E ∧ 0x7E < 0x80 ∧ 0x7E % 2 = 0) ∧
    (4 ∈ [1, 2, 4] ∧ 0x40 ≤ 0x7C ∧ 0x7C < 0x80 ∧ 0x7C % 4 = 0 ∧ 0x7C = 0x40 + 4 * (15 : Fin 16).val) := by
  decide

theorem wit_BufferWriteIsLittleEndian :
    base.busy = false ∧
    (4 ∈ [1, 2, 4] ∧ 0x40 ≤ 0x44 ∧ 0x44 < 0x80 ∧ 0x44 % 4 = 0 ∧ (3 : BitVec 6).toNat + 0x40 < 0x44 ∧
      0x44 + 4 ≤ (8 : BitVec 6).toNat + 0x40) ∧
    (1 ∈ [1, 2, 4] ∧ 0x40 ≤ 0x7F ∧ 0x7F < 0x80 ∧ 0x7F % 1 = 0) := by
  decide

theorem wit_ByteWriteSeenByWordRead :
    base.busy = false ∧ (memRead 0x3C 2).addr.toNat < 0x40 ∧ (memRead 0x3C 2).size ≠ 2 := by decide

theorem wit_AccessWhileBusy :
    (rfState 0).busy = true ∧
    ((memRead 0x08 4).legal = true ∧ (memRead 0x08 4).wr = false ∧ ∀ z, target (memRead 0x08 4).addr ≠ .buf z) ∧
    ((memRead 0x7F 1).legal = true ∧ (memRead 0x7F 1).wr = false ∧ target (memRead 0x7F 1).addr = .buf 63) ∧
    ((memWrite 0x1C 4 1).legal = true ∧ (memWrite 0x1C 4 1).wr = true ∧ target (memWrite 0x1C 4 1).addr = .iv 3) ∧
    ((memWrite 0x45 1 1).legal = true ∧ (memWrite 0x45 1 1).wr = true ∧ target (memWrite 0x45 1 1).addr = .buf 5) ∧
    ((memWrite 0x00 4 1).legal = true ∧ (memWrite 0x00 4 1).wr = true ∧ target (memWrite 0x00 4 1).addr = .ctrl) ∧
    ((memWrite 0x04 4 1).legal = true ∧ (memWrite 0x04 4 1).wr = true ∧ target (memWrite 0x04 4 1).addr = .status) ∧
    ((memWrite 0x08 4 1).legal = true ∧ (memWrite 0x08 4 1).wr = true ∧ target (memWrite 0x08 4 1).addr = .config) ∧
    ((memWrite 0x3C 4 1).legal = true ∧ (memWrite 0x3C 4 1).wr = true ∧
      target (memWrite 0x3C 4 1).addr = .reserved) := by
  decide

theorem wit_ReservedReadsZeroIgnoresWrites :
    ((memRead 0x0C 4).legal = true ∧ 0x0C ≤ (memRead 0x0C 4).addr.toNat ∧ (memRead 0x0C 4).addr.toNat < 0x10) ∧
    ((memWrite 0x3C 4 7).legal = true ∧ 0x20 ≤ (memWrite 0x3C 4 7).addr.toNat ∧
      (memWrite 0x3C 4 7).addr.toNat < 0x40) := by
  decide

theorem wit_IllegalAccessOnlySetsAccerr :
    ((memWrite 0x41 2 7).legal = false ∧ (memWrite 0x41 2 7).wr = true) ∧
    ((memRead 0x08 1).legal = false ∧ (memRead 0x08 1).wr = false ∧ (memRead 0x08 1).size = 0) ∧
    ((memRead 0x7F 2).legal = false ∧ (memRead 0x7F 2).wr = false ∧ (memRead 0x7F 2).size = 1) ∧
    ((memRead 0x40 8).legal = false ∧ (memRead 0x40 8).wr = false ∧ (memRead 0x40 8).size = 3) := by
  decide

theorem wit_HostNeverReachesTheEngine : (rfState 0).busy = true ∧ (memRead 0x42 4).legal = false := by decide

theorem wit_IrqIsEnabledDone : base.busy = false ∧ (3 : Word32).getLsbD 0 = true := by decide

theorem wit_AccerrIsSticky :
    (let s : State := { base with accerr := true, inputs := [.access (memWrite 0x04 4 4)] }
     step s = .next base ∧ s.accerr = true ∧ base.accerr = false) ∧
    (let s : State := { base with accerr := true, inputs := [.rst none] }
     look (step s) State.accerr = some false ∧ s.accerr = true) :=
  ⟨⟨rfl, rfl, rfl⟩, rfl, rfl⟩

theorem wit_DoneChangesOnlyAsSpecified :
    ((mixState 7 3 15).done = false ∧ look (step (mixState 7 3 15)) State.done = some true) ∧
    (let s : State := { base with done := true, inputs := [.access (memWrite 0x04 4 2)] }
     s.done = true ∧ step s = .next base) ∧
    (let s : State := { base with done := true, inputs := [.access startWrite] }
     s.done = true ∧ step s = .next { base with phase := .init }) ∧
    (let s : State := { base with done := true, inputs := [.rst (some startWrite)] }
     s.done = true ∧ look (step s) State.done = some false) :=
  ⟨⟨rfl, by decide⟩, ⟨rfl, rfl⟩, ⟨rfl, rfl⟩, rfl, rfl⟩

theorem wit_RomsNeverChange : step base = .next base := rfl

theorem wit_IvChangesOnlyByIdleHostWrite :
    let s : State := { base with inputs := [.access (memWrite 0x1C 4 9)] }
    step s = .next { base with iv := #v[0, 0, 0, 9] } ∧ (#v[0, 0, 0, 9] : Vector Word32 4) ≠ s.iv :=
  ⟨rfl, by decide⟩

theorem wit_BufferByteChangesOnlyAsSpecified :
    (let s : State := { mixState 0 0 0 with lanes := Vector.replicate 16 1, buf := [(0, 5)] }
     s.phase = .mix ∧ look (step s) (fun t => t.bufRead 0) = some 6 ∧ s.bufRead 0 = 5) ∧
    (let s : State := { base with buf := [(5, 0)], inputs := [.access (memWrite 0x45 1 0xAA)] }
     look (step s) (fun t => t.bufRead 5) = some 0xAA ∧ s.bufRead 5 = 0) := by
  decide

theorem wit_CarryChangesOnlyAsSpecified :
    look (step { base with phase := .init }) State.carry = some true ∧
    (let s : State := { rfState 0 with lanes := Vector.replicate 16 0x80 }
     s.carry = false ∧ look (step s) State.carry = some true) ∧
    (let s : State := { mixState 0 0 1 with buf := [(1, 5)] }
     s.carry = false ∧ look (step s) State.carry = some true) := by
  decide

theorem wit_ResetAbortsAndForgets :
    SameBuild base (mixState 3 1 7) ∧ (mixState 3 1 7).inputs = base.inputs ∧ (mixState 3 1 7).draws = base.draws :=
  ⟨⟨rfl, rfl, rfl⟩, rfl, rfl⟩

theorem wit_DecodeEncodeAgree : decode 0xCB0 = .ok (.mxor 11) := by decide

/-- Both sides of each equivalence at a ROM that is well-formed and at one that is not, and the four refusing steps. -/
theorem wit_IllFormedRomsAreRefused :
    ((rfProgram t1).isSome = true ∧ (rfProgram [0x300]).isSome = false ∧ (rfProgram [0x800]).isSome = false) ∧
    ((mixProgram mixRomListing).isSome = true ∧ (mixProgram (mixRomListing.set 0 0xE00)).isSome = false ∧
      (mixProgram (mixRomListing.set 15 0x8E0)).isSome = false ∧
      (mixProgram (mixRomListing.set 15 0x4F0)).isSome = false) ∧
    (({ base with phase := .init, rfRom := [0x300] } : State).phase = .init ∧ rfProgram [0x300] = none) ∧
    (({ base with phase := .rf, rfRom := [0x300] } : State).phase = .rf) ∧
    ((rfProgram base.rfRom).isSome = true ∧ mixProgram (mixRomListing.set 0 0xE00) = none) ∧
    ({ base with phase := .mix, mixRom := mixRomListing.set 0 0xE00 } : State).phase = .mix := by
  decide

theorem wit_AssemblyRoundTrip :
    ("ADC R23, l15".toList.map lowerChar = printInstrAs laneAlias laneName (.adc 15 15)) ∧
    ("Msbc L0, [Z+]".toList.map lowerChar = printInstrAs laneName laneAlias (.msbc 0)) ∧
    ("SWAP r8".toList.map lowerChar = printInstrAs laneAlias laneAlias (.swap 0)) := by
  decide

/-- The invariant holds in an idle engine, in the middle of a row and at the very last step. -/
theorem wit_StepKeepsInv :
    State.Inv base ∧ State.Inv (rfState 3) ∧ State.Inv (mixState 7 3 15) ∧ step base = .next base ∧
      look (step (mixState 7 3 15)) State.phase = some .idle := by
  refine ⟨⟨by decide, by decide, by decide, trivial, by decide⟩,
    ⟨by decide, by decide, by decide, ?_, by decide⟩, ⟨by decide, by decide, by decide, ?_, by decide⟩, rfl, by decide⟩
  · show (rfState 3).k.toNat < (rfState 3).rfLen ∧ (rfState 3).z.toNat = 16 * (rfState 3).row.toNat
    decide
  · show (mixState 7 3 15).z.toNat = 16 * (mixState 7 3 15).row.toNat + (mixState 7 3 15).i.toNat
    decide

theorem wit_CursorChangesOnlyAsSpecified :
    State.Inv (mixState 7 3 15) ∧ (mixState 7 3 15).z = 63 ∧
    (∃ t, step (mixState 7 3 15) = .next t ∧ t.z ≠ (mixState 7 3 15).z) ∧
    (∃ t, step { base with phase := .init, z := 9 } = .next t ∧ t.z ≠ 9) :=
  ⟨wit_StepKeepsInv.2.2.1, by decide, ⟨_, rfl, by decide⟩, ⟨_, rfl, by decide⟩⟩

theorem wit_EngineNeverStops : State.Inv base ∧ State.Inv (rfState 3) := ⟨wit_StepKeepsInv.1, wit_StepKeepsInv.2.1⟩

theorem wit_RoundFunctionIsFold :
    (rfState 0).phase = .rf ∧ (rfState 0).k = 0 ∧ rfProgram (rfState 0).rfRom = some t1Ops ∧ t1Ops ≠ [] := by
  decide

theorem wit_StateMixerIsFold :
    (mixState 0 1 0).phase = .mix ∧ (mixState 0 1 0).i = 0 ∧ (mixState 0 1 0).mixRom = mixRomListing := by
  decide

theorem wit_InvocationComputesDance :
    let s : State := { base with phase := .init, rfRom := t1 }
    s.phase = .init ∧ rfProgram s.rfRom = some t1Ops ∧ s.mixRom = mixRomListing ∧
      0 < 1 + 32 * (t1Ops.length + 16) := by
  decide

theorem wit_EveryByteWrittenEightTimes :
    State.Inv { base with phase := .init } ∧ ({ base with phase := .init } : State).phase = .init := by
  exact ⟨⟨by decide, by decide, by decide, trivial, by decide⟩, rfl⟩

/-- Two engines that differ in every lane, the carry and the cursor. -/
theorem wit_ResultIndependentOfEarlierState :
    let s : State := { base with phase := .init }
    let t : State := { base with phase := .init, lanes := Vector.replicate 16 7, carry := true, z := 9 }
    s.phase = .init ∧ t.phase = .init ∧ t.rfRom = s.rfRom ∧ t.mixRom = s.mixRom ∧ t.iv = s.iv ∧ SameBuffer s t ∧
      engineRun 1 s = .next s.initStep ∧ engineRun 1 t = .next t.initStep := by
  refine ⟨by decide, by decide, by decide, by decide, by decide, fun _ => rfl, rfl, rfl⟩

/-- A START and a buffer write while busy, then the 513 engine steps of the empty table. -/
theorem wit_InterleavingDoesNotChangeResult :
    let xs : List Input := [.access startWrite, .access (memWrite 0x45 1 0xAA)] ++ List.replicate 513 .engine
    let s : State := { base with phase := .init }
    s.phase = .init ∧ rfProgram s.rfRom = some [] ∧ s.mixRom = mixRomListing ∧
      (∀ x ∈ xs, x = .engine ∨ ∃ a, x = .access a) ∧
      xs.count .engine = 1 + 32 * (([] : List Instr).length + 16) ∧ xs.getLast? = some .engine := by
  refine ⟨by decide, by decide, by decide, fun x hx => ?_, ?_, ?_⟩
  · simp only [List.cons_append, List.nil_append, List.mem_cons, List.mem_replicate] at hx
    rcases hx with rfl | rfl | ⟨_, rfl⟩
    · exact .inr ⟨_, rfl⟩
    · exact .inr ⟨_, rfl⟩
    · exact .inl rfl
  · rw [List.count_append, List.count_replicate_self]
    rfl
  · rw [List.getLast?_append, List.getLast?_replicate]
    rfl

theorem wit_CallComputesDance :
    base.busy = false ∧ rfProgram base.rfRom = some [] ∧ base.mixRom = mixRomListing ∧
    ({ base with rfRom := t1 } : State).busy = false ∧
      rfProgram ({ base with rfRom := t1 } : State).rfRom = some t1Ops := by
  decide

theorem wit_ChainedInvocationsRatchet :
    base.busy = false ∧ rfProgram base.rfRom = some [] ∧ base.mixRom = mixRomListing := by
  decide

theorem wit_ZeroCarryZeroBufferStaysZero : RfTable.wf t1Ops = true := by decide

end Sys2Proof.Tests
end

section
/-! The encoder and the decoder on one micro-operation (R81 to R84), the ROM of a well-formed table (R86), and the two
repository tables (R9, R87). -/

namespace Sys2Proof

/-! ### The fields of the encoder's words (R81, R82) -/

/-- A format R word under the width its four fields add up to, which the laws of `++` need. -/
theorem extractLsb'_wordR (start len : Nat) (op : BitVec 3) (a b : LaneIx) :
    (wordR op a b).extractLsb' start len =
      BitVec.extractLsb' (n := 3 + 1 + 4 + 4) start len (op ++ 0#1 ++ laneField a ++ laneField b) := rfl

@[simp] theorem bField_wordR (op : BitVec 3) (a b : LaneIx) : bField (wordR op a b) = laneField b := by
  rw [bField, extractLsb'_wordR, BitVec.extractLsb'_append_eq_right]

@[simp] theorem aField_wordR (op : BitVec 3) (a b : LaneIx) : aField (wordR op a b) = laneField a := by
  rw [aField, extractLsb'_wordR, BitVec.extractLsb'_append_eq_of_le (by decide), BitVec.extractLsb'_append_eq_right]

@[simp] theorem rsvField_wordR (op : BitVec 3) (a b : LaneIx) : rsvField (wordR op a b) = 0 := by
  rw [rsvField, extractLsb'_wordR, BitVec.extractLsb'_append_eq_of_le (by decide),
    BitVec.extractLsb'_append_eq_of_le (by decide), BitVec.extractLsb'_append_eq_right]
  rfl

@[simp] theorem opField_wordR (op : BitVec 3) (a b : LaneIx) : opField (wordR op a b) = op := by
  rw [opField, extractLsb'_wordR, BitVec.extractLsb'_append_eq_of_le (by decide),
    BitVec.extractLsb'_append_eq_of_le (by decide), BitVec.extractLsb'_append_eq_left]

@[simp] theorem laneOf_laneField (l : LaneIx) : laneOf (laneField l) = l := rfl

/-- A format U or M word is the format R word whose `B` field names lane 0. -/
theorem wordUM_eq_wordR (op : BitVec 3) (a : LaneIx) : wordUM op a = wordR op a 0 := rfl

theorem oneLane_wordR_zero (op : BitVec 3) (a : LaneIx) (mk : LaneIx → Instr) :
    oneLane (wordR op a 0) mk = .ok (mk a) := by
  have hb : bField (wordR op a 0) = 0 := bField_wordR op a 0
  simp [oneLane, hb]

/-- The decoder undoes the encoder (R82, R83). -/
theorem decode_encode (i : Instr) : decode (encode i) = .ok i := by
  cases i with
  | adc a b => simp [encode, decode]
  | xor a b => simp [encode, decode]
  | swap a => simp [encode, decode, wordUM_eq_wordR, oneLane_wordR_zero]
  | madc a => simp [encode, decode, wordUM_eq_wordR, oneLane_wordR_zero]
  | msbc a => simp [encode, decode, wordUM_eq_wordR, oneLane_wordR_zero]
  | mxor a => simp [encode, decode, wordUM_eq_wordR, oneLane_wordR_zero]

/-- What the spec says of the open tables holds of the built chip's (R9, R86, R87). -/
theorem Config.rf_ok : RfConfig.ok Config.rf := (@Config.rfOpen Config.rfWitness).property

/-- Tables that share their first 16 entries, the first with at least 16 of them, have the same entry at every index
below 16 (R9). -/
theorem RfConfig.ok.shared_entry {c : RfConfig} (h : c.ok) {k : Nat} (hk : k < 16) :
    c.tableA[k]? = c.tableB[k]? ∧ (c.tableA[k]?).isSome = true := by
  obtain ⟨-, -, -, hlenA, -, htake, -⟩ := h
  constructor
  · calc c.tableA[k]? = (c.tableA.take 16)[k]? := (List.getElem?_take_of_lt hk).symm
      _ = (c.tableB.take 16)[k]? := by rw [htake]
      _ = c.tableB[k]? := List.getElem?_take_of_lt hk
  · have hkA : k < c.tableA.length := by omega
    simpa using hkA

theorem RfConfig.ok.tables_differ {c : RfConfig} (h : c.ok) : c.tableA ≠ c.tableB := by
  obtain ⟨-, -, -, -, -, -, hne⟩ := h
  exact hne

namespace Machine

/-- The ROM written from a table decodes to that table (R84, R86). -/
theorem decodeAll_romOf (t : List Instr) : decodeAll (romOf t) = some t := by
  induction t with
  | nil => rfl
  | cons i is ih =>
    have hcons : romOf (i :: is) = encode i :: romOf is := rfl
    simp [hcons, decodeAll, decode_encode, ih]

/-- The ROM of a well-formed round-function table holds that table (R86). -/
theorem rfProgram_romOf {t : List Instr} (ht : RfTable.wf t = true) : rfProgram (romOf t) = some t :=
  rfProgram_eq_some.mpr ⟨decodeAll_romOf t, ht⟩

/-- Settles O47: the ROM's words are encoded from a well-formed table and the decoder undoes the encoder; the rest is what
the open configuration is constrained by. -/
theorem builtTablesWellFormed : Obligations.BuiltTablesWellFormed := by
  unfold Obligations.BuiltTablesWellFormed
  exact ⟨rfProgram_romOf rfTable_wf, fun _ hk => Config.rf_ok.shared_entry hk, Config.rf_ok.tables_differ⟩

end Machine
end Sys2Proof
end

section
/-! Which fields of the state a step can change, and by what (spec/10_state.md): one lemma per operation and field, then
the rules R24 to R40 of the whole machine. -/

namespace Sys2Proof

/-! ### Micro-operations that write the carry (R24) -/

/-- The micro-operations whose result goes to the carry too: `ADC`, `MADC` and `MSBC` (R24). -/
def Instr.writesCarry : Instr → Bool
  | .adc _ _ => true
  | .xor _ _ => false
  | .swap _ => false
  | .madc _ => true
  | .msbc _ => true
  | .mxor _ => false

theorem Instr.writesCarry_eq_false {i : Instr} (hadc : ∀ a b, i ≠ .adc a b) (hmadc : ∀ a, i ≠ .madc a)
    (hmsbc : ∀ a, i ≠ .msbc a) : i.writesCarry = false := by
  cases i with
  | adc a b => exact absurd rfl (hadc a b)
  | madc a => exact absurd rfl (hmadc a)
  | msbc a => exact absurd rfl (hmsbc a)
  | xor a b => rfl
  | swap a => rfl
  | mxor a => rfl

theorem Instr.eq_adc_of_isRound {i : Instr} (hr : i.isRound = true) (hc : i.writesCarry = true) :
    ∃ a b, i = .adc a b := by
  cases i with
  | adc a b => exact ⟨a, b, rfl⟩
  | xor a b => cases hc
  | swap a => cases hc
  | madc a => cases hr
  | msbc a => cases hr
  | mxor a => cases hr

theorem Instr.eq_madc_or_msbc_of_mixerLane {i : Instr} {a : LaneIx} (hl : i.mixerLane? = some a)
    (hc : i.writesCarry = true) : i = .madc a ∨ i = .msbc a := by
  cases i with
  | adc a b => cases hl
  | xor a b => cases hl
  | swap a => cases hl
  | madc a => cases hl; exact .inl rfl
  | msbc a => cases hl; exact .inr rfl
  | mxor a => cases hc

namespace Machine

theorem effect_carry {i : Instr} (h : i.writesCarry = false) (s : State) : (effect i s).carry = s.carry := by
  cases i with
  | xor a b => rfl
  | swap a => rfl
  | mxor a => rfl
  | adc a b => cases h
  | madc a => cases h
  | msbc a => cases h

/-- A micro-operation that does not write the carry does not read it either. -/
theorem effect_withCarry {i : Instr} (h : i.writesCarry = false) (s : State) (c : Bool) :
    effect i { s with carry := c } = { effect i s with carry := c } := by
  cases i with
  | xor a b => rfl
  | swap a => rfl
  | mxor a => rfl
  | adc a b => cases h
  | madc a => cases h
  | msbc a => cases h

/-- Settles O8: the three other micro-operations neither write nor read the carry. -/
theorem carryUntouchedByXorSwapMxor : Obligations.CarryUntouchedByXorSwapMxor := by
  unfold Obligations.CarryUntouchedByXorSwapMxor
  intro ins s c hadc hmadc hmsbc
  have hc : ins.writesCarry = false := Instr.writesCarry_eq_false hadc hmadc hmsbc
  refine ⟨effect ins s, exec_eq_next ins s, effect_carry hc s, ?_⟩
  rw [exec_eq_next, effect_withCarry hc]

/-! ### The beginning of a step, and what it fetches -/

@[simp] theorem State.beginStep_bufRead (s : State) (rest : List Input) (z : BitVec 6) :
    (s.beginStep rest).bufRead z = s.bufRead z := rfl

@[simp] theorem State.beginStep_busy (s : State) (rest : List Input) : (s.beginStep rest).busy = s.busy := rfl

@[simp] theorem State.beginStep_fetchRf (s : State) (rest : List Input) :
    (s.beginStep rest).fetchRf = s.fetchRf := rfl

@[simp] theorem State.beginStep_fetchMix (s : State) (rest : List Input) :
    (s.beginStep rest).fetchMix = s.fetchMix := rfl

theorem State.beginStep_nil {s : State} (h : s.inputs = []) : s.beginStep [] = { s with rdata := none } := by
  rw [State.beginStep, ← h]

theorem State.fetchRf_eq_ok {s : State} {p : List Instr} {ins : Instr} (hp : rfProgram s.rfRom = some p)
    (hi : p[s.k.toNat]? = some ins) : s.fetchRf = .ok ins := by
  simp only [State.fetchRf, hp, hi]

theorem State.fetchMix_eq_ok {s : State} {p : List Instr} {ins : Instr} (hp : mixProgram s.mixRom = some p)
    (hi : p[s.i.toNat]? = some ins) : s.fetchMix = .ok ins := by
  simp only [State.fetchMix, hp, Option.bind_some, hi]

/-- The micro-operation of a well-formed round-function ROM at an index is what the word there decodes to (R27). -/
theorem rfProgram_getElem? {rom : List MicroWord} {p : List Instr} (hp : rfProgram rom = some p) {n : Nat}
    {u : MicroWord} {ins : Instr} (hu : rom[n]? = some u) (hd : decode u = .ok ins) : p[n]? = some ins :=
  (decodeAll_getElem? (rfProgram_eq_some.mp hp).1 n ins).mpr ⟨u, hu, hd⟩

/-- The micro-operation of a well-formed mixer ROM at an index is what the word there decodes to (R27). -/
theorem mixProgram_getElem? {rom : Vector MicroWord 16} {p : List Instr} (hp : mixProgram rom = some p) (n : Fin 16)
    {ins : Instr} (hd : decode rom[n] = .ok ins) : p[n.val]? = some ins :=
  (decodeAll_getElem? (mixProgram_eq_some.mp hp).1 n.val ins).mpr ⟨rom[n], by simp, hd⟩

/-- Settles O16: a well-formed ROM's micro-operation at an index is what the word there decodes to. -/
theorem stepRunsTheDecodedMicroOp : Obligations.StepRunsTheDecodedMicroOp := by
  unfold Obligations.StepRunsTheDecodedMicroOp
  intro s ins hin hrf hmix
  obtain ⟨p, hp⟩ := Option.isSome_iff_exists.mp hrf
  obtain ⟨m, hm⟩ := Option.isSome_iff_exists.mp hmix
  rw [step_nil hin, State.beginStep_nil hin]
  refine ⟨fun hph u hu hd => ⟨_, exec_eq_next _ _, ?_⟩, fun hph hd => ⟨_, exec_eq_next _ _, ?_⟩⟩
  · exact engineStep_rf hph hp (rfProgram_getElem? hp hu hd)
  · exact engineStep_mix hph hm (mixProgram_getElem? hm s.i.toFin hd)

/-! ### The sequencer's move after a mixer micro-operation -/

/-- Where the sequencer goes after a mixer micro-operation (R154 to R156). -/
theorem State.afterMix_cases (s : State) :
    (s.i.toNat < 15 ∧ s.afterMix = { s with i := s.i + 1 }) ∨
    (s.i = 15 ∧ s.row.toNat < 3 ∧ s.afterMix = { s with row := s.row + 1 }.startRow) ∨
    (s.i = 15 ∧ s.row = 3 ∧ s.outer.toNat < 7 ∧
      s.afterMix = { s with outer := s.outer + 1, row := 0, z := 0 }.startRow) ∨
    (s.i = 15 ∧ s.row = 3 ∧ s.outer = 7 ∧ s.afterMix = s.endOfInvocation) := by
  unfold State.afterMix
  split
  · next hi => exact .inl ⟨hi, rfl⟩
  · have hi : s.i = 15 := by bv_omega
    unfold State.endOfRow
    split
    · next hrow => exact .inr (.inl ⟨hi, hrow, rfl⟩)
    · have hrow : s.row = 3 := by bv_omega
      split
      · next hout => exact .inr (.inr (.inl ⟨hi, hrow, hout, rfl⟩))
      · have hout : s.outer = 7 := by bv_omega
        exact .inr (.inr (.inr ⟨hi, hrow, hout, rfl⟩))

theorem State.afterMix_done (s : State) :
    s.afterMix.done = s.done ∨
      (s.i = 15 ∧ s.row = 3 ∧ s.outer = 7 ∧ s.afterMix.done = true ∧ s.afterMix.phase = .idle) := by
  obtain ⟨-, h⟩ | ⟨-, -, h⟩ | ⟨-, -, -, h⟩ | ⟨hi, hrow, hout, h⟩ := s.afterMix_cases
  · exact .inl (by rw [h])
  · exact .inl (by rw [h, State.startRow_done])
  · exact .inl (by rw [h, State.startRow_done])
  · exact .inr ⟨hi, hrow, hout, by rw [h, State.endOfInvocation_done], by rw [h, State.endOfInvocation_phase]⟩

/-- The move sets the cursor only at the start of an outer round, and there to 0 (R155). -/
theorem State.afterMix_z (s : State) :
    s.afterMix.z = s.z ∨ (s.i = 15 ∧ s.row = 3 ∧ s.afterMix.z = 0) := by
  obtain ⟨-, h⟩ | ⟨-, -, h⟩ | ⟨hi, hrow, -, h⟩ | ⟨-, -, -, h⟩ := s.afterMix_cases
  · exact .inl (by rw [h])
  · exact .inl (by rw [h, State.startRow_z])
  · exact .inr ⟨hi, hrow, by rw [h, State.startRow_z]⟩
  · exact .inl (by rw [h, State.endOfInvocation_z])

/-! ### What an engine step does to DONE, the carry, the cursor and the buffer -/

/-- An engine step leaves DONE alone, or it ends the invocation and sets it (R36, R156). -/
theorem engineStep_done {s t : State} (h : engineStep s = .next t) :
    t.done = s.done ∨
      (s.phase = .mix ∧ s.i = 15 ∧ s.row = 3 ∧ s.outer = 7 ∧ t.done = true ∧ t.phase = .idle) := by
  obtain ⟨-, rfl⟩ | ⟨-, -, -, rfl⟩ | ⟨-, p, ins, -, -, rfl⟩ | ⟨hp, p, ins, -, -, rfl⟩ := engineStep_cases h
  · exact .inl rfl
  · exact .inl s.initStep_done
  · exact .inl ((effect ins s).afterRf_z_done.2.trans (effect_shell ins s).done)
  · have g := effect_shell ins s
    obtain hd | ⟨hi, hrow, hout, hd, ht⟩ := (effect ins s).afterMix_done
    · exact .inl (hd.trans g.done)
    · exact .inr ⟨hp, g.i ▸ hi, g.row ▸ hrow, g.outer ▸ hout, hd, ht⟩

/-- An engine step leaves the carry alone but for `INIT` and the micro-operations that write it (R24, R25). -/
theorem engineStep_carry {s t : State} (h : engineStep s = .next t) (hne : t.carry ≠ s.carry) :
    (s.phase = .init ∧ t.carry = true) ∨
    (s.phase = .rf ∧ ∃ a b, s.fetchRf = .ok (.adc a b)) ∨
    (s.phase = .mix ∧ ∃ a, s.fetchMix = .ok (.madc a) ∨ s.fetchMix = .ok (.msbc a)) := by
  have writes {ins : Instr} (hc : (effect ins s).carry ≠ s.carry) : ins.writesCarry = true := by
    by_contra hw
    exact hc (effect_carry (Bool.eq_false_iff.mpr hw) s)
  obtain ⟨-, rfl⟩ | ⟨hp, -, -, rfl⟩ | ⟨hp, p, ins, hr, hi, rfl⟩ | ⟨hp, p, ins, hr, hi, rfl⟩ := engineStep_cases h
  · exact absurd rfl hne
  · exact .inl ⟨hp, s.initStep_carry⟩
  · rw [(effect ins s).afterRf_same.carry] at hne
    obtain ⟨a, b, rfl⟩ := Instr.eq_adc_of_isRound (rfProgram_isRound hr hi) (writes hne)
    exact .inr (.inl ⟨hp, a, b, State.fetchRf_eq_ok hr hi⟩)
  · rw [(effect ins s).afterMix_same.carry] at hne
    have hf : s.fetchMix = .ok ins := State.fetchMix_eq_ok hr hi
    refine .inr (.inr ⟨hp, s.i.toFin, ?_⟩)
    obtain rfl | rfl := Instr.eq_madc_or_msbc_of_mixerLane (mixProgram_lane hr s.i.toFin hi) (writes hne)
    · exact .inl hf
    · exact .inr hf

/-- An engine step leaves the cursor alone but for `INIT` and a mixer step, which advances it and, at the start of an
outer round, sets it to 0 (R28, R130, R155). -/
theorem engineStep_z {s t : State} (h : engineStep s = .next t) :
    t.z = s.z ∨ (s.phase = .init ∧ t.z = 0) ∨
      (s.phase = .mix ∧ (t.z = s.z + 1 ∨ (s.i = 15 ∧ s.row = 3 ∧ t.z = 0))) := by
  obtain ⟨-, rfl⟩ | ⟨hp, -, -, rfl⟩ | ⟨-, p, ins, hr, hi, rfl⟩ | ⟨hp, p, ins, hr, hi, rfl⟩ := engineStep_cases h
  · exact .inl rfl
  · exact .inr (.inl ⟨hp, s.initStep_z⟩)
  · exact .inl ((effect ins s).afterRf_z_done.1.trans (effect_round (rfProgram_isRound hr hi) s).2)
  · have g := effect_shell ins s
    obtain ⟨v, -, -, hz⟩ := effect_mixer (mixProgram_lane hr s.i.toFin hi) s
    refine .inr (.inr ⟨hp, ?_⟩)
    obtain hz' | ⟨hi, hrow, hz'⟩ := (effect ins s).afterMix_z
    · exact .inl (hz'.trans hz)
    · exact .inr ⟨g.i ▸ hi, g.row ▸ hrow, hz'⟩

/-- An engine step leaves a buffer byte alone but for a mixer step with the cursor at it (R33, R51). -/
theorem engineStep_bufRead {s t : State} (h : engineStep s = .next t) (z : BitVec 6) :
    t.bufRead z = s.bufRead z ∨ (s.phase = .mix ∧ s.z = z) := by
  obtain ⟨-, rfl⟩ | ⟨-, -, -, rfl⟩ | ⟨-, p, ins, hr, hi, rfl⟩ | ⟨hp, p, ins, hr, hi, rfl⟩ := engineStep_cases h
  · exact .inl rfl
  · exact .inl (State.bufRead_congr s.initStep_buf s.initStep_bufDraw z)
  · have f := (effect ins s).afterRf_same
    exact .inl (State.bufRead_congr (f.buf.trans (effect_round (rfProgram_isRound hr hi) s).1)
      (f.bufDraw.trans (effect_shell ins s).bufDraw) z)
  · have f := (effect ins s).afterMix_same
    obtain ⟨v, hb, -, -⟩ := effect_mixer (mixProgram_lane hr s.i.toFin hi) s
    have hw : (effect ins s).afterMix.bufRead z = (s.bufWrite s.z v).bufRead z :=
      State.bufRead_congr (s := s.bufWrite s.z v) (f.buf.trans hb) (f.bufDraw.trans (effect_shell ins s).bufDraw) z
    rw [State.bufRead_bufWrite] at hw
    by_cases hz : s.z = z
    · exact .inr ⟨hp, hz⟩
    · exact .inl (by rw [hw, if_neg hz])

/-! ### What a host access does to DONE, the IV registers and the buffer -/

/-- A host access is a legal write, which lands at its target, or it changes only ACCERR, the port and the count of
draws (R61 to R64). -/
theorem State.hostAccess_cases (s : State) (a : HostAccess) :
    (∃ b r d, s.hostAccess a = { s with accerr := b, rdata := r, draws := d }) ∨
    (a.legal = true ∧ a.wr = true ∧ ∃ n, sizeBytes a.size = some n ∧
      s.hostAccess a = s.hostWrite n a.wdata (target a.addr)) := by
  cases hl : a.legal with
  | false =>
    left
    simp only [State.hostAccess, hl, State.badAccess]
    cases a.wr
    · exact ⟨_, _, _, rfl⟩
    · exact ⟨_, _, _, rfl⟩
  | true =>
    obtain ⟨n, hn⟩ := HostAccess.legal_size hl
    cases hw : a.wr with
    | true => exact .inr ⟨rfl, rfl, n, hn, s.hostAccess_write hl hw hn⟩
    | false =>
      left
      rw [s.hostAccess_read hl hw hn]
      unfold State.hostRead
      split
      · split
        · exact ⟨_, _, _, rfl⟩
        · exact ⟨_, _, _, rfl⟩
      · exact ⟨_, _, _, rfl⟩

theorem State.writeCtrl_done (s : State) (w : Word32) :
    (s.writeCtrl w).done = (s.done && !(w.getLsbD 0 && !s.busy)) := by
  unfold State.writeCtrl
  cases w.getLsbD 0 <;> cases s.busy <;> simp

theorem State.writeStatus_done (s : State) (w : Word32) : (s.writeStatus w).done = (s.done && !w.getLsbD 1) := by
  unfold State.writeStatus
  cases w.getLsbD 1 <;> cases w.getLsbD 2 <;> simp

theorem State.writeCtrl_iv_buf (s : State) (w : Word32) :
    (s.writeCtrl w).iv = s.iv ∧ (s.writeCtrl w).buf = s.buf := by
  unfold State.writeCtrl
  cases w.getLsbD 0 <;> cases s.busy <;> exact ⟨rfl, rfl⟩

theorem State.writeStatus_iv_buf (s : State) (w : Word32) :
    (s.writeStatus w).iv = s.iv ∧ (s.writeStatus w).buf = s.buf := by
  unfold State.writeStatus
  cases w.getLsbD 1 <;> cases w.getLsbD 2 <;> exact ⟨rfl, rfl⟩

/-- A write never sets DONE, and clears it only by a 1 to its bit or by START (R170, R173). -/
theorem State.hostWrite_done (s : State) (n : Nat) (w : Word32) (g : Target) :
    (s.hostWrite n w g).done = s.done ∨
      ((s.hostWrite n w g).done = false ∧
        ((g = .status ∧ w.getLsbD 1 = true) ∨ (g = .ctrl ∧ w.getLsbD 0 = true ∧ s.busy = false))) := by
  unfold State.hostWrite
  cases g with
  | ctrl =>
    simp only [State.writeCtrl_done]
    cases w.getLsbD 0 <;> cases s.busy <;> simp
  | status =>
    simp only [State.writeStatus_done]
    cases w.getLsbD 1 <;> simp
  | config => exact .inl rfl
  | reserved => exact .inl rfl
  | iv m => left; cases s.busy <;> rfl
  | buf z =>
    left
    cases s.busy
    · exact (s.bufWriteLE_shell n z w).done
    · rfl

/-- A write changes the IV registers only at one of them, while the engine is not busy (R61, R62). -/
theorem State.hostWrite_iv (s : State) (n : Nat) (w : Word32) (g : Target) :
    (s.hostWrite n w g).iv = s.iv ∨ ((∃ m, g = .iv m) ∧ s.busy = false) := by
  unfold State.hostWrite
  cases g with
  | ctrl => exact .inl (s.writeCtrl_iv_buf w).1
  | status => exact .inl (s.writeStatus_iv_buf w).1
  | config => exact .inl rfl
  | reserved => exact .inl rfl
  | iv m =>
    cases s.busy
    · exact .inr ⟨⟨m, rfl⟩, rfl⟩
    · exact .inl rfl
  | buf z =>
    left
    cases s.busy
    · exact (s.bufWriteLE_shell n z w).iv
    · rfl

/-- A write changes a buffer byte only if it covers it, while the engine is not busy (R61, R62). -/
theorem State.hostWrite_bufRead (s : State) (n : Nat) (w : Word32) (g : Target) (z : BitVec 6) :
    (s.hostWrite n w g).bufRead z = s.bufRead z ∨
      (s.busy = false ∧ ∃ y, g = .buf y ∧ ∃ j < n, z = y + BitVec.ofNat 6 j) := by
  have hd := (s.hostWrite_frame n w g).bufDraw
  unfold State.hostWrite at hd ⊢
  cases g with
  | ctrl => exact .inl (State.bufRead_congr (s.writeCtrl_iv_buf w).2 hd z)
  | status => exact .inl (State.bufRead_congr (s.writeStatus_iv_buf w).2 hd z)
  | config => exact .inl rfl
  | reserved => exact .inl rfl
  | iv m => left; cases s.busy <;> rfl
  | buf y =>
    cases s.busy with
    | true => exact .inl rfl
    | false =>
      by_cases hz : ∃ j < n, z = y + BitVec.ofNat 6 j
      · exact .inr ⟨rfl, y, rfl, hz⟩
      · exact .inl (State.bufRead_bufWriteLE_other n s y w fun j hj e => hz ⟨j, hj, e⟩)

/-- An offset that names a buffer byte is 0x40 more than its index (R53). -/
theorem toNat_of_target_buf {addr : BitVec 7} {y : BitVec 6} (h : target addr = .buf y) :
    addr.toNat = 0x40 + y.toNat := by
  unfold target at h
  split at h
  · cases h
    have := addr.isLt
    simp only [BitVec.toNat_ofNat]
    omega
  · split at h <;> cases h

/-- The sizes of an access in bytes (R52). -/
theorem sizeBytes_mem {size : BitVec 2} {n : Nat} (h : sizeBytes size = some n) : n ∈ [1, 2, 4] := by
  unfold sizeBytes at h
  split at h
  · cases h; decide
  · cases h; decide
  · cases h; decide
  · cases h

/-- A legal access to the buffer part is naturally aligned (R58). -/
theorem HostAccess.legal_aligned {a : HostAccess} {n : Nat} (hl : a.legal = true) (hn : sizeBytes a.size = some n)
    (ha : 0x40 ≤ a.addr.toNat) : a.addr.toNat % n = 0 := by
  simp only [HostAccess.legal, hn, if_neg (Nat.not_lt.mpr ha), decide_eq_true_eq] at hl
  exact hl

/-- A legal access to the buffer part ends inside it (R58). -/
theorem HostAccess.legal_buf_fits {a : HostAccess} {n : Nat} {y : BitVec 6} (hl : a.legal = true)
    (hn : sizeBytes a.size = some n) (ht : target a.addr = .buf y) : y.toNat + n ≤ 64 := by
  have hy := y.isLt
  have ha := toNat_of_target_buf ht
  have hm := HostAccess.legal_aligned hl hn (by omega)
  have hs := sizeBytes_mem hn
  simp only [List.mem_cons, List.not_mem_nil, or_false] at hs
  rcases hs with rfl | rfl | rfl <;> omega

/-- The `j`-th byte on from `y`, where that does not pass the buffer's end. -/
theorem toNat_add_ofNat {y : BitVec 6} {j : Nat} (h : y.toNat + j < 64) :
    (y + BitVec.ofNat 6 j).toNat = y.toNat + j := by
  simp only [BitVec.toNat_add, BitVec.toNat_ofNat]
  omega

/-- DONE after a host access: as before, or cleared by a write of 1 to it or by START (R36, R170, R173). -/
theorem State.hostAccess_done (s : State) (a : HostAccess) :
    (s.hostAccess a).done = s.done ∨
      ((s.hostAccess a).done = false ∧ a.legal = true ∧ a.wr = true ∧
        ((target a.addr = .status ∧ a.wdata.getLsbD 1 = true) ∨
          (target a.addr = .ctrl ∧ a.wdata.getLsbD 0 = true ∧ s.busy = false))) := by
  obtain ⟨b, r, d, h⟩ | ⟨hl, hw, n, -, h⟩ := s.hostAccess_cases a
  · exact .inl (by rw [h])
  · rw [h]
    exact (s.hostWrite_done n a.wdata _).imp_right fun ⟨hd, hc⟩ => ⟨hd, hl, hw, hc⟩

/-- A host access changes the IV registers only as a legal write to one, while the engine is not busy (R31, R32). -/
theorem State.hostAccess_iv (s : State) (a : HostAccess) :
    (s.hostAccess a).iv = s.iv ∨
      (a.legal = true ∧ a.wr = true ∧ (∃ m, target a.addr = .iv m) ∧ s.busy = false) := by
  obtain ⟨b, r, d, h⟩ | ⟨hl, hw, n, -, h⟩ := s.hostAccess_cases a
  · exact .inl (by rw [h])
  · rw [h]
    exact (s.hostWrite_iv n a.wdata _).imp_right fun hc => ⟨hl, hw, hc⟩

/-- A host access changes a buffer byte only as a legal write that covers it, while the engine is not busy (R33, R62). -/
theorem State.hostAccess_bufRead (s : State) (a : HostAccess) (z : BitVec 6) :
    (s.hostAccess a).bufRead z = s.bufRead z ∨
      (a.legal = true ∧ a.wr = true ∧ s.busy = false ∧ ∃ n y, sizeBytes a.size = some n ∧
        target a.addr = .buf y ∧ y.toNat ≤ z.toNat ∧ z.toNat < y.toNat + n) := by
  obtain ⟨b, r, d, h⟩ | ⟨hl, hw, n, hn, h⟩ := s.hostAccess_cases a
  · exact .inl (by rw [h]; rfl)
  · rw [h]
    obtain he | ⟨hb, y, hy, j, hj, rfl⟩ := s.hostWrite_bufRead n a.wdata (target a.addr) z
    · exact .inl he
    · have hfit := HostAccess.legal_buf_fits hl hn hy
      have hz : (y + BitVec.ofNat 6 j).toNat = y.toNat + j := toNat_add_ofNat (by omega)
      exact .inr ⟨hl, hw, hb, n, y, hn, hy, by omega, by omega⟩

/-! ### The rules of the whole machine -/

/-- Settles O34: an engine step sets DONE only at the invocation's end and never clears it; a host access never sets it. -/
theorem doneChangesOnlyAsSpecified : Obligations.DoneChangesOnlyAsSpecified := by
  unfold Obligations.DoneChangesOnlyAsSpecified
  intro s t h
  obtain ⟨rest, he⟩ | ⟨e, rest, hin, ⟨a, rfl, rfl⟩ | ⟨p, rfl, rfl⟩⟩ := step_cases h
  · obtain hd | ⟨hp, hi, hrow, hout, hd, ht⟩ := engineStep_done he
    · exact ⟨fun hf ht => by simp [hd, hf] at ht, fun hf ht => by simp [hd, hf] at ht⟩
    · exact ⟨fun _ _ => ⟨hp, hi, hrow, hout, ht⟩, fun _ hf => by simp [hd] at hf⟩
  · obtain hd | ⟨hd, hl, hw, hc⟩ := (s.beginStep rest).hostAccess_done a
    · exact ⟨fun hf ht => by simp [hd, hf] at ht, fun hf ht => by simp [hd, hf] at ht⟩
    · exact ⟨fun _ ht => by simp [hd] at ht, fun _ _ => ⟨_, rest, hin, .inr ⟨a, rfl, hl, hw, hc⟩⟩⟩
  · exact ⟨fun _ ht => (nomatch ht), fun _ _ => ⟨_, rest, hin, .inl ⟨p, rfl⟩⟩⟩

/-- What `CONFIG` reads as is hardwired (R37). -/
theorem SameBuild.configWord {s t : State} (h : SameBuild s t) : t.configWord = s.configWord := by
  simp only [State.configWord, State.rfLen, h.rfRom, h.rfVariant]

theorem State.applyReset_build (s : State) : SameBuild s s.applyReset := by
  constructor <;> simp only [State.applyReset, State.afterReset]

/-- No step changes what is hardwired (R40). -/
theorem step_build {s t : State} (h : step s = .next t) : SameBuild s t := by
  obtain ⟨rest, he⟩ | ⟨e, rest, -, ⟨a, -, rfl⟩ | ⟨p, -, rfl⟩⟩ := step_cases h
  · obtain ⟨-, -, -, hb, -, -⟩ := engineStep_frame he
    exact ⟨hb.rfRom, hb.mixRom, hb.rfVariant⟩
  · have f := (s.beginStep rest).hostAccess_frame a
    exact ⟨f.rfRom, f.mixRom, f.rfVariant⟩
  · have f := (s.beginStep rest).applyReset_build
    exact ⟨f.rfRom, f.mixRom, f.rfVariant⟩

/-- Settles O35: no step changes what is hardwired, and `CONFIG` reads as nothing else. -/
theorem romsNeverChange : Obligations.RomsNeverChange := by
  unfold Obligations.RomsNeverChange
  exact fun s t h => ⟨step_build h, (step_build h).configWord⟩

/-- Settles O36: the engine never writes an IV register, and a host access only as `hostAccess_iv` says. -/
theorem ivChangesOnlyByIdleHostWrite : Obligations.IvChangesOnlyByIdleHostWrite := by
  unfold Obligations.IvChangesOnlyByIdleHostWrite
  intro s t h hne
  obtain ⟨rest, he⟩ | ⟨e, rest, hin, ⟨a, rfl, rfl⟩ | ⟨p, rfl, rfl⟩⟩ := step_cases h
  · obtain ⟨-, -, hiv, -, -, -⟩ := engineStep_frame he
    exact absurd hiv hne
  · obtain hiv | ⟨hl, hw, ⟨m, hm⟩, hb⟩ := (s.beginStep rest).hostAccess_iv a
    · exact absurd hiv hne
    · exact ⟨_, rest, hin, .inr ⟨a, m, rfl, hl, hw, hm, hb⟩⟩
  · exact ⟨_, rest, hin, .inl ⟨p, rfl⟩⟩

/-- Settles O37: an engine step writes the byte at the cursor in MIX only, a host access only the bytes it covers. -/
theorem bufferByteChangesOnlyAsSpecified : Obligations.BufferByteChangesOnlyAsSpecified := by
  unfold Obligations.BufferByteChangesOnlyAsSpecified
  intro s t z h hne
  obtain ⟨rest, he⟩ | ⟨e, rest, hin, ⟨a, rfl, rfl⟩ | ⟨p, rfl, rfl⟩⟩ := step_cases h
  · exact .inl ((engineStep_bufRead he z).resolve_left hne)
  · obtain hb | ⟨hl, hw, hb, n, y, hn, hy, hlo, hhi⟩ := (s.beginStep rest).hostAccess_bufRead a z
    · exact absurd hb hne
    · exact .inr ⟨_, rest, hin, .inr ⟨a, n, y, rfl, hl, hw, hb, hn, hy, hlo, hhi⟩⟩
  · exact .inr ⟨_, rest, hin, .inl ⟨p, rfl⟩⟩

/-- Settles O38: the engine writes the carry only as `engineStep_carry` says, a host access never. -/
theorem carryChangesOnlyAsSpecified : Obligations.CarryChangesOnlyAsSpecified := by
  unfold Obligations.CarryChangesOnlyAsSpecified
  intro s t h hne
  obtain ⟨rest, he⟩ | ⟨e, rest, hin, ⟨a, rfl, rfl⟩ | ⟨p, rfl, rfl⟩⟩ := step_cases h
  · obtain hinit | hrf | hmix := engineStep_carry he hne
    · exact .inl hinit
    · exact .inr (.inl hrf)
    · exact .inr (.inr (.inl hmix))
  · exact absurd ((s.beginStep rest).hostAccess_frame a).carry hne
  · exact .inr (.inr (.inr ⟨p, rest, hin⟩))

/-- At the last mixer step of an outer round the invariant has the cursor at 63, so resetting it to 0 is the advance by 1
(90_conflicts.md C2). -/
theorem State.Inv.cursor_at_end_of_outer {s : State} (h : s.Inv) (hp : s.phase = .mix) (hi : s.i = 15)
    (hrow : s.row = 3) : s.z.toNat = 63 := by
  have hpos := h.position
  simp only [State.PositionOk, hp, hi, hrow] at hpos
  exact hpos

/-- Settles O39: the engine writes the cursor only as `engineStep_z` says, a host access never. -/
theorem cursorChangesOnlyAsSpecified : Obligations.CursorChangesOnlyAsSpecified := by
  unfold Obligations.CursorChangesOnlyAsSpecified
  intro s t hs h hne
  obtain ⟨rest, he⟩ | ⟨e, rest, hin, ⟨a, rfl, rfl⟩ | ⟨p, rfl, rfl⟩⟩ := step_cases h
  · obtain hz | hinit | ⟨hp, hz | ⟨hi, hrow, hz⟩⟩ := engineStep_z he
    · exact absurd hz hne
    · exact .inl hinit
    · refine .inr (.inl ⟨hp, ?_⟩)
      rw [hz, BitVec.toNat_add]
      rfl
    · refine .inr (.inl ⟨hp, ?_⟩)
      rw [hz, hs.cursor_at_end_of_outer hp hi hrow]
      rfl
  · exact absurd ((s.beginStep rest).hostAccess_frame a).z hne
  · exact .inr (.inr ⟨p, rest, hin⟩)

/-! ### Reset -/

/-- Settles O40: the reset state holds R41's values by definition. -/
theorem resetLeavesIdleAndClear : Obligations.ResetLeavesIdleAndClear := by
  unfold Obligations.ResetLeavesIdleAndClear
  exact ⟨rfl, rfl, rfl, rfl, rfl, rfl, rfl, rfl, rfl⟩

/-- The mixer ROM's listing is a well-formed mixer ROM (R89, R90). -/
theorem mixProgram_mixRomListing_isSome : (mixProgram mixRomListing).isSome = true := by decide

/-- Settles O49: the buffer is empty, the built ROMs are well-formed, and the engine is idle. -/
theorem invAtReset : Obligations.InvAtReset := by
  unfold Obligations.InvAtReset
  have hrf : rfProgram State.reset.rfRom = some Config.rfTable := rfProgram_romOf rfTable_wf
  exact
    { bufWf := State.reset_wf
      rfWf := by rw [hrf]; rfl
      mixWf := mixProgram_mixRomListing_isSome
      position := trivial
      doneIdle := fun _ => rfl }

end Machine
end Sys2Proof
end

section
/-! One invocation of the engine from INIT to IDLE (R150 to R157): runs of the engine that are busy all the way, put
together from the round function, the mixer, a row, an outer round, each with what it does to the view that the
reference function works on. -/

namespace Sys2Proof
namespace Machine

/-! ### Runs of the busy engine -/

/-- `n` engine steps lead from `s` to `t`, with the engine busy before each of them. -/
def BusyRun : Nat → State → State → Prop
  | 0, s, t => s = t
  | n + 1, s, t => s.phase ≠ .idle ∧ ∃ u, engineStep s = .next u ∧ BusyRun n u t

theorem BusyRun.step {n : Nat} {s t u : State} (hs : s.phase ≠ .idle) (h : engineStep s = .next t)
    (h' : BusyRun n t u) : BusyRun (n + 1) s u :=
  ⟨hs, t, h, h'⟩

theorem BusyRun.trans {m n : Nat} {s t u : State} (h : BusyRun m s t) (h' : BusyRun n t u) : BusyRun (m + n) s u := by
  induction m generalizing s with
  | zero => cases h; simpa using h'
  | succ m ih =>
    obtain ⟨hs, v, hv, h⟩ := h
    rw [show m + 1 + n = (m + n) + 1 by omega]
    exact .step hs hv (ih h)

/-- The last step of a run of the busy engine, taken apart. -/
theorem BusyRun.last {n : Nat} {s t : State} (h : BusyRun (n + 1) s t) :
    ∃ u, BusyRun n s u ∧ u.phase ≠ .idle ∧ engineStep u = .next t := by
  induction n generalizing s with
  | zero =>
    obtain ⟨hs, v, hv, rfl⟩ := h
    exact ⟨s, rfl, hs, hv⟩
  | succ n ih =>
    obtain ⟨hs, v, hv, h⟩ := h
    obtain ⟨u, hu, hbusy, hlast⟩ := ih h
    exact ⟨u, .step hs hv hu, hbusy, hlast⟩

theorem BusyRun.engineRun {n : Nat} {s t : State} (h : BusyRun n s t) : engineRun n s = .next t := by
  induction n generalizing s with
  | zero => cases h; rfl
  | succ n ih =>
    obtain ⟨-, u, hu, h⟩ := h
    exact engineRun_one hu (ih h)

/-- Before its end, a run of the busy engine is at states that are not idle. -/
theorem BusyRun.busy_before {n m : Nat} {s t : State} (h : BusyRun n s t) (hm : m < n) :
    ∃ u, Machine.engineRun m s = .next u ∧ u.phase ≠ .idle := by
  induction m generalizing n s with
  | zero =>
    cases n with
    | zero => omega
    | succ n => exact ⟨s, rfl, h.1⟩
  | succ m ih =>
    cases n with
    | zero => omega
    | succ n =>
      obtain ⟨-, v, hv, h⟩ := h
      obtain ⟨u, hu, hbusy⟩ := ih h (by omega)
      exact ⟨u, engineRun_one hv hu, hbusy⟩

/-- A run of the engine keeps what no engine step changes. -/
theorem BusyRun.frame {n : Nat} {s t : State} (h : BusyRun n s t) :
    t.accerr = s.accerr ∧ t.ie = s.ie ∧ t.iv = s.iv ∧ SameBuild s t ∧ t.inputs = s.inputs ∧ t.rdata = s.rdata := by
  induction n generalizing s with
  | zero => cases h; exact ⟨rfl, rfl, rfl, ⟨rfl, rfl, rfl⟩, rfl, rfl⟩
  | succ n ih =>
    obtain ⟨-, u, hu, h⟩ := h
    obtain ⟨ha, hie, hiv, hb, hin, hrd⟩ := engineStep_frame hu
    obtain ⟨ha', hie', hiv', hb', hin', hrd'⟩ := ih h
    exact ⟨ha'.trans ha, hie'.trans hie, hiv'.trans hiv,
      ⟨hb'.rfRom.trans hb.rfRom, hb'.mixRom.trans hb.mixRom, hb'.rfVariant.trans hb.rfVariant⟩, hin'.trans hin,
      hrd'.trans hrd⟩

/-! ### A sequence of micro-operations, and the sequencer's position -/

/-- A sequence of micro-operations in index order, without the sequencer's moves between them. -/
def effects (p : List Instr) (s : State) : State := p.foldl (fun s ins => effect ins s) s

@[simp] theorem effects_nil (s : State) : effects [] s = s := rfl

@[simp] theorem effects_cons (ins : Instr) (p : List Instr) (s : State) :
    effects (ins :: p) s = effects p (effect ins s) := rfl

theorem SameShell.trans {s t u : State} (h : SameShell s t) (h' : SameShell t u) : SameShell s u :=
  ⟨h'.phase.trans h.phase, h'.outer.trans h.outer, h'.row.trans h.row, h'.k.trans h.k, h'.i.trans h.i,
    h'.iv.trans h.iv, h'.ie.trans h.ie, h'.done.trans h.done, h'.accerr.trans h.accerr, h'.rfRom.trans h.rfRom,
    h'.mixRom.trans h.mixRom, h'.rfVariant.trans h.rfVariant, h'.rdata.trans h.rdata, h'.inputs.trans h.inputs,
    h'.draws.trans h.draws, h'.bufDraw.trans h.bufDraw⟩

theorem effects_shell (p : List Instr) (s : State) : SameShell s (effects p s) := by
  induction p generalizing s with
  | nil => constructor <;> rfl
  | cons ins p ih => exact (effect_shell ins s).trans (ih _)

/-- On the reference's view, a sequence of micro-operations is the reference's fold (R110, R131). -/
theorem effects_view (p : List Instr) (s : State) : (effects p s).view = refRun p s.view := by
  induction p generalizing s with
  | nil => rfl
  | cons ins p ih => rw [effects_cons, ih, effect_view]; rfl

/-- The state with the sequencer at another place of the row. -/
def State.seek (s : State) (ph : Phase) (k : BitVec 8) (i : BitVec 4) : State := { s with phase := ph, k := k, i := i }

@[simp] theorem State.seek_seek (s : State) (ph ph' : Phase) (k k' : BitVec 8) (i i' : BitVec 4) :
    (s.seek ph k i).seek ph' k' i' = s.seek ph' k' i' := rfl

@[simp] theorem State.seek_view (s : State) (ph : Phase) (k : BitVec 8) (i : BitVec 4) :
    (s.seek ph k i).view = s.view := rfl

theorem effect_seek (ins : Instr) (s : State) (ph : Phase) (k : BitVec 8) (i : BitVec 4) :
    effect ins (s.seek ph k i) = (effect ins s).seek ph k i := by
  cases ins <;> rfl

theorem effects_seek (p : List Instr) (s : State) (ph : Phase) (k : BitVec 8) (i : BitVec 4) :
    effects p (s.seek ph k i) = (effects p s).seek ph k i := by
  induction p generalizing s with
  | nil => rfl
  | cons ins p ih => rw [effects_cons, effect_seek, ih, effects_cons]

/-! ### The round function and the mixer -/

/-- The head and the rest of a list from an index on. -/
theorem getElem?_of_drop_eq_cons {α : Type} {p q : List α} {n : Nat} {x : α} (h : p.drop n = x :: q) :
    p[n]? = some x ∧ p.drop (n + 1) = q ∧ p.length = n + 1 + q.length := by
  have hlen := congrArg List.length h
  simp only [List.length_drop, List.length_cons] at hlen
  refine ⟨?_, ?_, by omega⟩
  · rw [← List.head?_drop, h]; rfl
  · rw [← List.tail_drop, h]; rfl

/-- From `RF` the engine runs the rest of the table, and then is at the mixer (R110, R153). -/
theorem busyRun_rf {s : State} {p q : List Instr} (hp : rfProgram s.rfRom = some p) (hph : s.phase = .rf)
    (hq : p.drop s.k.toNat = q) (hne : q ≠ []) : BusyRun q.length s ((effects q s).seek .mix 0 0) := by
  induction q generalizing s with
  | nil => exact absurd rfl hne
  | cons ins q ih =>
    obtain ⟨hins, hq, hlen⟩ := getElem?_of_drop_eq_cons hq
    have hshell := effect_shell ins s
    have hrf : (effect ins s).rfLen = p.length := by
      rw [State.rfLen, hshell.rfRom, rfProgram_length hp]
    refine .step (by simp [hph]) (engineStep_rf hph hp hins) ?_
    unfold State.afterRf
    rw [hrf, hshell.k]
    cases q with
    | nil => rw [if_neg (by simp at hlen; omega)]; rfl
    | cons ins' q =>
      rw [if_pos (by simp at hlen; omega)]
      have hk : (s.k + 1).toNat = s.k.toNat + 1 := by
        have := rfProgram_length_le hp
        rw [← rfProgram_length hp] at this
        simp at hlen
        bv_omega
      have hseek : { effect ins s with k := s.k + 1 } = (effect ins s).seek .rf (s.k + 1) s.i := by
        rw [← hph, ← hshell.phase, ← hshell.i]; rfl
      rw [hseek]
      have := ih (s := (effect ins s).seek .rf (s.k + 1) s.i) (hshell.rfRom ▸ hp) rfl
        (by rw [← hq, ← hk]; rfl) (by simp)
      rwa [effects_seek, State.seek_seek] at this

/-- From `MIX` the engine runs the rest of the mixer ROM, and then the row ends (R131, R154). -/
theorem busyRun_mix {s : State} {m q : List Instr} (hm : mixProgram s.mixRom = some m) (hph : s.phase = .mix)
    (hq : m.drop s.i.toNat = q) (hne : q ≠ []) :
    BusyRun q.length s ((effects q s).seek .mix s.k 15).endOfRow := by
  induction q generalizing s with
  | nil => exact absurd rfl hne
  | cons ins q ih =>
    obtain ⟨hins, hq, hlen⟩ := getElem?_of_drop_eq_cons hq
    have hshell := effect_shell ins s
    rw [mixProgram_length hm] at hlen
    have hseek (i : BitVec 4) : { effect ins s with i := i } = (effect ins s).seek .mix s.k i := by
      rw [← hph, ← hshell.phase, ← hshell.k]; rfl
    refine .step (by simp [hph]) (engineStep_mix hph hm hins) ?_
    unfold State.afterMix
    rw [hshell.i]
    cases q with
    | nil =>
      simp at hlen
      have hi : s.i = 15 := by bv_omega
      rw [if_neg (by omega), List.length_nil, effects_cons, effects_nil, ← hseek, ← hi, ← hshell.i]
      rfl
    | cons ins' q =>
      simp at hlen
      have hi : (s.i + 1).toNat = s.i.toNat + 1 := by bv_omega
      rw [if_pos (by omega), hseek]
      have := ih (s := (effect ins s).seek .mix s.k (s.i + 1)) (hshell.mixRom ▸ hm) rfl
        (by rw [← hq, ← hi]; rfl) (by simp)
      rwa [effects_seek, State.seek_seek] at this

/-! ### Rows, outer rounds and the invocation -/

theorem State.endOfRow_next_row {s : State} (h : s.row.toNat < 3) :
    s.endOfRow = { s with row := s.row + 1 }.startRow := if_pos h

theorem State.endOfRow_next_round {s : State} (hrow : s.row = 3) (hout : s.outer.toNat < 7) :
    s.endOfRow = { s with outer := s.outer + 1, row := 0, z := 0 }.startRow := by
  rw [State.endOfRow, if_neg (by simp [hrow]), if_pos hout]

theorem State.endOfRow_last {s : State} (hrow : s.row = 3) (hout : ¬ s.outer.toNat < 7) :
    s.endOfRow = s.endOfInvocation := by
  rw [State.endOfRow, if_neg (by simp [hrow]), if_neg hout]

/-- The mixer ROM's listing decodes to the schedule (R88, R89). -/
theorem mixProgram_mixRomListing : mixProgram mixRomListing = some mixSchedule := by decide

/-- The state's ROMs are the table `p` and the hardware's mixer ROM. -/
structure State.HasRoms (s : State) (p : List Instr) : Prop where
  rf : rfProgram s.rfRom = some p
  mix : s.mixRom = mixRomListing

theorem State.HasRoms.of_shell {s t : State} {p : List Instr} (h : s.HasRoms p) (hs : SameShell s t) : t.HasRoms p :=
  ⟨hs.rfRom ▸ h.rf, hs.mixRom.trans h.mix⟩

theorem State.startRow_eq_seek (s : State) :
    s.startRow = s.seek (if 0 < s.rfRom.length then .rf else .mix) 0 0 := rfl

/-- From the start of a row the engine runs the table, and then is at the mixer, also when the table is empty. -/
theorem busyRun_table {s : State} {p : List Instr} (hp : rfProgram s.rfRom = some p) :
    BusyRun p.length s.startRow ((effects p s).seek .mix 0 0) := by
  have hlen := rfProgram_length hp
  rw [State.startRow_eq_seek, ← hlen]
  cases p with
  | nil => rfl
  | cons ins p =>
    have := busyRun_rf (s := s.seek .rf 0 0) hp rfl rfl (by simp [State.seek])
    rwa [effects_seek, State.seek_seek] at this

/-- One row: the table, the mixer, and the end of the row (R150). -/
theorem busyRun_row {s : State} {p : List Instr} (h : s.HasRoms p) :
    ∃ u : State, BusyRun (p.length + 16) s.startRow u.endOfRow ∧ u.view = refRow p s.view ∧ u.row = s.row ∧
      u.outer = s.outer ∧ u.HasRoms p := by
  have hsh := effects_shell p s
  have hsh' := effects_shell mixSchedule (effects p s)
  have hmix : BusyRun mixSchedule.length ((effects p s).seek .mix 0 0)
      ((effects mixSchedule (effects p s)).seek .mix 0 15).endOfRow := by
    have hm : mixProgram (effects p s).mixRom = some mixSchedule := by
      rw [hsh.mixRom, h.mix, mixProgram_mixRomListing]
    have := busyRun_mix (s := (effects p s).seek .mix 0 0) (q := mixSchedule) hm rfl rfl (List.cons_ne_nil _ _)
    rwa [effects_seek, State.seek_seek] at this
  refine ⟨_, (busyRun_table h.rf).trans hmix, ?_, hsh'.row.trans hsh.row, hsh'.outer.trans hsh.outer, ?_⟩
  · rw [State.seek_view, effects_view, effects_view]; rfl
  · exact ⟨(h.of_shell (hsh.trans hsh')).rf, (h.of_shell (hsh.trans hsh')).mix⟩

/-- The `j + 1` rows to the end of an outer round (R150, R155). -/
theorem busyRun_rows {s : State} {p : List Instr} (h : s.HasRoms p) {j : Nat} (hj : s.row.toNat + j = 3) :
    ∃ u : State, BusyRun ((j + 1) * (p.length + 16)) s.startRow u.endOfRow ∧ u.view = (refRow p)^[j + 1] s.view ∧
      u.row = 3 ∧ u.outer = s.outer ∧ u.HasRoms p := by
  induction j generalizing s with
  | zero =>
    obtain ⟨u, hu, hview, hrow, hout, hroms⟩ := busyRun_row h
    exact ⟨u, by simpa using hu, hview, by bv_omega, hout, hroms⟩
  | succ j ih =>
    obtain ⟨u, hu, hview, hrow, hout, hroms⟩ := busyRun_row h
    have hnext := State.endOfRow_next_row (s := u) (by rw [hrow]; omega)
    obtain ⟨v, hv, hview', hrow', hout', hroms'⟩ :=
      ih (s := { u with row := u.row + 1 }) ⟨hroms.rf, hroms.mix⟩ (by rw [hrow]; bv_omega)
    refine ⟨v, ?_, ?_, hrow', hout'.trans hout, hroms'⟩
    · rw [Nat.succ_mul, Nat.add_comm]
      exact hu.trans (hnext ▸ hv)
    · rw [Function.iterate_succ_apply, ← hview]
      exact hview'

/-- One outer round, the cursor reset before it (R150). -/
theorem busyRun_round {s : State} {p : List Instr} (h : s.HasRoms p) (hrow : s.row = 0) :
    ∃ u : State, BusyRun (4 * (p.length + 16)) { s with z := 0 }.startRow u.endOfRow ∧
      u.view = refOuter p s.view ∧ u.row = 3 ∧ u.outer = s.outer ∧ u.HasRoms p :=
  busyRun_rows (s := { s with z := 0 }) (j := 3) ⟨h.rf, h.mix⟩ (by simp [hrow])

/-- The `j + 1` outer rounds to the end of the invocation (R150, R155, R156). -/
theorem busyRun_rounds {s : State} {p : List Instr} (h : s.HasRoms p) (hrow : s.row = 0) {j : Nat}
    (hj : s.outer.toNat + j = 7) :
    ∃ u : State, BusyRun ((j + 1) * (4 * (p.length + 16))) { s with z := 0 }.startRow u.endOfInvocation ∧
      u.view = (refOuter p)^[j + 1] s.view := by
  induction j generalizing s with
  | zero =>
    obtain ⟨u, hu, hview, hrow', hout, -⟩ := busyRun_round h hrow
    have hend := State.endOfRow_last hrow' (by rw [hout]; omega)
    exact ⟨u, by simpa [hend] using hu, by simpa using hview⟩
  | succ j ih =>
    obtain ⟨u, hu, hview, hrow', hout, hroms⟩ := busyRun_round h hrow
    have hnext := State.endOfRow_next_round hrow' (by rw [hout]; omega)
    obtain ⟨v, hv, hview'⟩ :=
      ih (s := { u with outer := u.outer + 1, row := 0 }) ⟨hroms.rf, hroms.mix⟩ rfl (by rw [hout]; bv_omega)
    refine ⟨v, ?_, ?_⟩
    · rw [Nat.succ_mul, Nat.add_comm]
      exact hu.trans (hnext ▸ hv)
    · rw [Function.iterate_succ_apply, ← hview]
      exact hview'

/-- The lanes that `INIT` leaves are the reference's (R100, R101). -/
theorem initLanes_eq_refLanes (iv : Vector Word32 4) : initLanes iv = refLanes iv := by
  have byte (w : Word32) (j : Nat) : ivByte w j = (w >>> (8 * j)).setWidth 8 := by
    simp [ivByte, BitVec.extractLsb', BitVec.setWidth, BitVec.ofNat]
  unfold initLanes refLanes
  congr 1
  funext l
  fin_cases l <;> simp [byte]

/-- What the reference sees after the `INIT` step (R100, R103, R151). -/
theorem State.initStep_view (s : State) :
    s.initStep.view = { lanes := refLanes s.iv, carry := true, z := 0, buf := s.buffer } := by
  have hbuf : s.initStep.buffer = s.buffer := State.buffer_congr (.of_eq s.initStep_buf s.initStep_bufDraw)
  simp only [State.view, State.initStep_lanes, State.initStep_carry, State.initStep_z, hbuf, initLanes_eq_refLanes]

/-- The `INIT` step leaves the sequencer at the start of a row, with the cursor at 0 (R151). -/
theorem State.startRow_initStep (s : State) : { s.initStep with z := 0 }.startRow = s.initStep :=
  calc { s.initStep with z := 0 }.startRow
    _ = s.initStep.startRow := by rw [← s.initStep_z]
    _ = s.initStep.seek s.initStep.phase s.initStep.k s.initStep.i := by
      rw [State.startRow_eq_seek, State.initStep_rfRom, State.initStep_phase, State.initStep_k, State.initStep_i]
    _ = s.initStep := rfl

/-- From `INIT` the engine is busy for `1 + 32 * (RF_LEN + 16)` steps, and then idle with `DONE` set and the buffer
permuted (R157). -/
theorem busyRun_invocation {s : State} {p : List Instr} (hph : s.phase = .init) (h : s.HasRoms p) :
    ∃ t : State, BusyRun (1 + 32 * (p.length + 16)) s t ∧ t.phase = .idle ∧ t.done = true ∧
      t.buffer = dance p s.buffer s.iv := by
  have hinit : engineStep s = .next s.initStep := by
    refine engineStep_init hph (by rw [h.rf]; rfl) ?_
    rw [h.mix, mixProgram_mixRomListing]; rfl
  have hroms : s.initStep.HasRoms p := ⟨by rw [State.initStep_rfRom, h.rf], by rw [State.initStep_mixRom, h.mix]⟩
  obtain ⟨u, hu, hview⟩ := busyRun_rounds (j := 7) hroms s.initStep_row (by rw [State.initStep_outer]; rfl)
  rw [State.startRow_initStep] at hu
  refine ⟨u.endOfInvocation, ?_, rfl, rfl, ?_⟩
  · rw [Nat.add_comm, show 32 * (p.length + 16) = (7 + 1) * (4 * (p.length + 16)) by omega]
    exact .step (by simp [hph]) hinit hu
  · calc u.endOfInvocation.buffer = u.view.buf := rfl
      _ = dance p s.buffer s.iv := by rw [hview, State.initStep_view]; rfl

end Machine
end Sys2Proof
end

section
/-! Host accesses interleaved with an invocation (R66, R67): two states with the same engine take the same engine steps,
and while the engine is busy a host access leaves it the same. -/

namespace Sys2Proof
namespace Machine

/-! ### States with the same engine -/

/-- Two states that agree on what the engine's steps read and write, the buffer by the bytes it reads as: on all but IE,
the status bits, the host port and the model's own counters. -/
structure SameEngine (s t : State) : Prop where
  view : t.view = s.view
  phase : t.phase = s.phase
  outer : t.outer = s.outer
  row : t.row = s.row
  k : t.k = s.k
  i : t.i = s.i
  iv : t.iv = s.iv
  rfRom : t.rfRom = s.rfRom
  mixRom : t.mixRom = s.mixRom

theorem State.view_buf (s : State) : s.view.buf = s.buffer := rfl

theorem SameEngine.trans {s t u : State} (h : SameEngine s t) (h' : SameEngine t u) : SameEngine s u :=
  ⟨h'.view.trans h.view, h'.phase.trans h.phase, h'.outer.trans h.outer, h'.row.trans h.row, h'.k.trans h.k,
    h'.i.trans h.i, h'.iv.trans h.iv, h'.rfRom.trans h.rfRom, h'.mixRom.trans h.mixRom⟩

theorem SameEngine.beginStep (s : State) (rest : List Input) : SameEngine s (s.beginStep rest) := by
  constructor <;> rfl

theorem SameEngine.buffer {s t : State} (h : SameEngine s t) : t.buffer = s.buffer := by
  rw [← State.view_buf, ← State.view_buf, h.view]

theorem SameEngine.seek {s t : State} (h : SameEngine s t) (ph : Phase) (k : BitVec 8) (i : BitVec 4) :
    SameEngine (s.seek ph k i) (t.seek ph k i) :=
  ⟨h.view, rfl, h.outer, h.row, rfl, rfl, h.iv, h.rfRom, h.mixRom⟩

theorem SameEngine.startRow {s t : State} (h : SameEngine s t) : SameEngine s.startRow t.startRow := by
  rw [State.startRow_eq_seek, State.startRow_eq_seek, h.rfRom]
  exact h.seek _ _ _

theorem SameEngine.effect {s t : State} (h : SameEngine s t) (ins : Instr) :
    SameEngine (effect ins s) (effect ins t) := by
  have f := effect_shell ins s
  have g := effect_shell ins t
  refine ⟨by rw [effect_view, effect_view, h.view], ?_, ?_, ?_, ?_, ?_, ?_, ?_, ?_⟩
  · rw [f.phase, g.phase, h.phase]
  · rw [f.outer, g.outer, h.outer]
  · rw [f.row, g.row, h.row]
  · rw [f.k, g.k, h.k]
  · rw [f.i, g.i, h.i]
  · rw [f.iv, g.iv, h.iv]
  · rw [f.rfRom, g.rfRom, h.rfRom]
  · rw [f.mixRom, g.mixRom, h.mixRom]

theorem SameEngine.initStep {s t : State} (h : SameEngine s t) : SameEngine s.initStep t.initStep := by
  refine ⟨?_, ?_, ?_, ?_, ?_, ?_, ?_, ?_, ?_⟩
  · rw [State.initStep_view, State.initStep_view, h.iv, h.buffer]
  · rw [State.initStep_phase, State.initStep_phase, h.rfRom]
  · rw [State.initStep_outer, State.initStep_outer]
  · rw [State.initStep_row, State.initStep_row]
  · rw [State.initStep_k, State.initStep_k]
  · rw [State.initStep_i, State.initStep_i]
  · rw [State.initStep_iv, State.initStep_iv, h.iv]
  · rw [State.initStep_rfRom, State.initStep_rfRom, h.rfRom]
  · rw [State.initStep_mixRom, State.initStep_mixRom, h.mixRom]

theorem State.afterRf_eq_seek (s : State) :
    s.afterRf = if s.k.toNat + 1 < s.rfRom.length then s.seek s.phase (s.k + 1) s.i else s.seek .mix 0 0 := rfl

theorem SameEngine.afterRf {s t : State} (h : SameEngine s t) : SameEngine s.afterRf t.afterRf := by
  rw [State.afterRf_eq_seek, State.afterRf_eq_seek, h.k, h.rfRom, h.phase, h.i]
  split <;> exact h.seek _ _ _

theorem SameEngine.endOfRow {s t : State} (h : SameEngine s t) : SameEngine s.endOfRow t.endOfRow := by
  have hz : ({ t with z := 0 } : State).view = ({ s with z := 0 } : State).view :=
    congrArg (fun r : RefState => { r with z := 0 }) h.view
  unfold State.endOfRow
  rw [h.row, h.outer]
  split
  · exact SameEngine.startRow ⟨h.view, h.phase, rfl, rfl, h.k, h.i, h.iv, h.rfRom, h.mixRom⟩
  · split
    · exact SameEngine.startRow ⟨hz, h.phase, rfl, rfl, h.k, h.i, h.iv, h.rfRom, h.mixRom⟩
    · exact ⟨h.view, rfl, h.outer, h.row, h.k, h.i, h.iv, h.rfRom, h.mixRom⟩

theorem State.afterMix_eq_seek (s : State) :
    s.afterMix = if s.i.toNat < 15 then s.seek s.phase s.k (s.i + 1) else s.endOfRow := rfl

theorem SameEngine.afterMix {s t : State} (h : SameEngine s t) : SameEngine s.afterMix t.afterMix := by
  rw [State.afterMix_eq_seek, State.afterMix_eq_seek, h.i, h.phase, h.k]
  split
  · exact h.seek _ _ _
  · exact h.endOfRow

/-- From states with the same engine, an engine step leads to states with the same engine. -/
theorem SameEngine.after_engineStep {s t u : State} (h : SameEngine s t) (hu : engineStep s = .next u) :
    ∃ v, engineStep t = .next v ∧ SameEngine u v := by
  obtain ⟨hp, rfl⟩ | ⟨hp, hr, hm, rfl⟩ | ⟨hp, p, ins, hr, hi, rfl⟩ | ⟨hp, p, ins, hr, hi, rfl⟩ := engineStep_cases hu
  · exact ⟨t, engineStep_idle (h.phase.trans hp), h⟩
  · exact ⟨t.initStep, engineStep_init (h.phase.trans hp) (h.rfRom ▸ hr) (h.mixRom ▸ hm), h.initStep⟩
  · exact ⟨_, engineStep_rf (h.phase.trans hp) (h.rfRom ▸ hr) (h.k ▸ hi), (h.effect ins).afterRf⟩
  · exact ⟨_, engineStep_mix (h.phase.trans hp) (h.mixRom ▸ hr) (h.i ▸ hi), (h.effect ins).afterMix⟩

/-! ### A host access while the engine is busy -/

/-- A write changes the phase only as a START while the engine is not busy (R170, R171). -/
theorem State.hostWrite_phase (s : State) (n : Nat) (w : Word32) (g : Target) :
    (s.hostWrite n w g).phase = s.phase ∨ (g = .ctrl ∧ w.getLsbD 0 = true ∧ s.busy = false) := by
  unfold State.hostWrite
  cases g with
  | ctrl =>
    unfold State.writeCtrl
    cases w.getLsbD 0 <;> cases s.busy <;> simp
  | status =>
    left
    unfold State.writeStatus
    cases w.getLsbD 1 <;> cases w.getLsbD 2 <;> rfl
  | config => exact .inl rfl
  | reserved => exact .inl rfl
  | iv m => left; cases s.busy <;> rfl
  | buf z =>
    left
    cases s.busy
    · exact (s.bufWriteLE_shell n z w).phase
    · rfl

/-- A host access changes the phase only as a legal START while the engine is not busy. -/
theorem State.hostAccess_phase (s : State) (a : HostAccess) :
    (s.hostAccess a).phase = s.phase ∨
      (a.legal = true ∧ a.wr = true ∧ target a.addr = .ctrl ∧ a.wdata.getLsbD 0 = true ∧ s.busy = false) := by
  obtain ⟨b, r, d, h⟩ | ⟨hl, hw, n, -, h⟩ := s.hostAccess_cases a
  · exact .inl (by rw [h])
  · rw [h]
    exact (s.hostWrite_phase n a.wdata _).imp_right fun hc => ⟨hl, hw, hc⟩

/-- While the engine is busy, a host access leaves it the same (R62, R67). -/
theorem SameEngine.hostAccess {s : State} (hs : s.phase ≠ .idle) (a : HostAccess) : SameEngine s (s.hostAccess a) := by
  have hb : s.busy ≠ false := mt s.busy_eq_false.mp hs
  have f := s.hostAccess_frame a
  have hphase : (s.hostAccess a).phase = s.phase :=
    (s.hostAccess_phase a).resolve_right fun ⟨_, _, _, _, h⟩ => hb h
  have hiv : (s.hostAccess a).iv = s.iv := (s.hostAccess_iv a).resolve_right fun ⟨_, _, _, h⟩ => hb h
  have hbuf : SameBuffer s (s.hostAccess a) := fun z =>
    (s.hostAccess_bufRead a z).resolve_right fun ⟨_, _, h, _⟩ => hb h
  refine ⟨?_, hphase, f.outer, f.row, f.k, f.i, hiv, f.rfRom, f.mixRom⟩
  simp only [State.view, f.lanes, f.carry, f.z, State.buffer_congr hbuf]

/-! ### An interleaved run -/

/-- The engine steps of an interleaving with host accesses do what they do without them, as long as the engine is busy
after each of them. -/
theorem BusyRun.interleaved {n : Nat} {s₀ t₀ s : State} {ys zs : List Input} (h : BusyRun n s₀ t₀)
    (hend : t₀.phase ≠ .idle) (he : SameEngine s₀ s) (hin : s.inputs = ys ++ zs)
    (hys : ∀ y ∈ ys, y = .engine ∨ ∃ a, y = .access a) (hn : ys.count .engine = n) :
    ∃ t, RunsTo ys.length s t ∧ SameEngine t₀ t ∧ t.inputs = zs := by
  induction ys generalizing n s₀ s with
  | nil =>
    obtain rfl : n = 0 := hn.symm
    cases h
    exact ⟨s, rfl, he, hin⟩
  | cons y ys ih =>
    have hbegin := he.trans (.beginStep s (ys ++ zs))
    have hrest := fun y hy => hys y (List.mem_cons_of_mem _ hy)
    obtain rfl | ⟨a, rfl⟩ := hys y List.mem_cons_self
    · obtain rfl : n = ys.count .engine + 1 := by rw [← hn, List.count_cons_self]
      obtain ⟨-, u₀, hu₀, h⟩ := h
      obtain ⟨u, hu, heu⟩ := hbegin.after_engineStep hu₀
      obtain ⟨-, -, -, -, huin, -⟩ := engineStep_frame hu
      obtain ⟨t, ht, het, htin⟩ := ih h heu huin hrest rfl
      exact ⟨t, .one ((step_cons hin).trans hu) ht, het, htin⟩
    · rw [List.count_cons_of_ne (by simp)] at hn
      have hbusy : s₀.phase ≠ .idle := by
        cases n with
        | zero => cases h; exact hend
        | succ n => exact h.1
      have hea := hbegin.trans (.hostAccess (hbegin.phase ▸ hbusy) a)
      obtain ⟨t, ht, het, htin⟩ := ih h hea (State.hostAccess_frame _ a).inputs hrest hn
      exact ⟨t, .one (step_cons hin) ht, het, htin⟩

/-- An engine step that ends an invocation sets `DONE` (R156). -/
theorem engineStep_done_of_idle {s t : State} (h : engineStep s = .next t) (hs : s.phase ≠ .idle)
    (ht : t.phase = .idle) : t.done = true := by
  obtain ⟨hp, -⟩ | ⟨-, -, -, rfl⟩ | ⟨hp, p, ins, -, -, rfl⟩ | ⟨hp, p, ins, -, -, rfl⟩ := engineStep_cases h
  · exact absurd hp hs
  · rw [State.initStep_phase] at ht
    split at ht <;> cases ht
  · unfold State.afterRf at ht
    split at ht
    · cases ((effect_shell ins s).phase.trans hp).symm.trans ht
    · cases ht
  · have hmix : (effect ins s).phase = .mix := (effect_shell ins s).phase.trans hp
    obtain ⟨-, he⟩ | ⟨-, -, he⟩ | ⟨-, -, -, he⟩ | ⟨-, -, -, he⟩ := (effect ins s).afterMix_cases
    · rw [he] at ht
      cases hmix.symm.trans ht
    · rw [he, State.startRow_phase] at ht
      split at ht <;> cases ht
    · rw [he, State.startRow_phase] at ht
      split at ht <;> cases ht
    · rw [he, State.endOfInvocation_done]

/-- Settles O57: all engine steps but the last find and leave the engine busy, so the host accesses between them do not
reach it; the last one ends the invocation. -/
theorem interleavingDoesNotChangeResult : Obligations.InterleavingDoesNotChangeResult := by
  unfold Obligations.InterleavingDoesNotChangeResult
  intro s p xs hph hp hm hxs hcount hlast
  obtain ⟨ys, rfl⟩ := List.getLast?_eq_some_iff.mp hlast
  obtain ⟨t₀, hrun, hidle, -, hbuf⟩ := busyRun_invocation hph ⟨hp, hm⟩
  obtain ⟨-, -, hiv, -, -, -⟩ := hrun.frame
  rw [Nat.add_comm] at hrun
  obtain ⟨u₀, hbefore, hbusy, hend⟩ := BusyRun.last hrun
  have hys : ys.count .engine = 32 * (p.length + 16) := by
    rw [List.count_append, List.count_singleton_self] at hcount
    omega
  obtain ⟨u, hu, heu, huin⟩ := hbefore.interleaved (s := { s with inputs := ys ++ [.engine] }) hbusy
    (by constructor <;> rfl) rfl (fun y hy => hxs y (List.mem_append_left _ hy)) hys
  have hbegin := heu.trans (.beginStep u [])
  obtain ⟨t, ht, het⟩ := hbegin.after_engineStep hend
  refine ⟨t, ?_, het.phase.trans hidle, ?_, het.buffer.trans hbuf, het.iv.trans hiv⟩
  · rw [List.length_append]
    exact hu.trans (.one ((step_cons huin).trans ht) rfl)
  · exact engineStep_done_of_idle ht (hbegin.phase ▸ hbusy) (het.phase.trans hidle)

end Machine
end Sys2Proof
end

section
/-! The host port's rules of spec/20_memory.md: the window's map and the legal accesses (R53, R58), the buffer's byte
order (R56, R57), what an access does idle, busy, to a reserved place and when it is not legal (R61 to R64), and the order
of the inputs (R66). -/

namespace Sys2Proof
namespace Machine

/-! ### The interleaving's next input (R66) -/

/-- Settles O15: `step` begins by taking the next input, and runs the one it took. -/
theorem stepTakesTheNextInput : Obligations.StepTakesTheNextInput := by
  unfold Obligations.StepTakesTheNextInput
  refine fun s => ⟨fun h => ?_, fun e rest h => ?_⟩
  · rw [step_nil h, State.beginStep_nil h]
  · rw [step_cons h]
    refine ⟨?_, ?_, ?_⟩
    · rintro rfl; rfl
    · rintro a rfl; rfl
    · rintro p rfl; rfl

/-! ### The window and the legal accesses (R53, R58) -/

/-- The legal accesses, by the size code (R52, R58). -/
theorem HostAccess.legal_iff (a : HostAccess) :
    a.legal = true ↔
      (a.addr.toNat < 0x40 ∧ a.size = 2 ∧ a.addr.toNat % 4 = 0) ∨
      (0x40 ≤ a.addr.toNat ∧
        (a.size = 0 ∨ (a.size = 1 ∧ a.addr.toNat % 2 = 0) ∨ (a.size = 2 ∧ a.addr.toNat % 4 = 0))) := by
  obtain ⟨wr, addr, size, wdata⟩ := a
  have hsize : size = 0 ∨ size = 1 ∨ size = 2 ∨ size = 3 := by revert size; decide
  by_cases ha : addr.toNat < 0x40
  · obtain rfl | rfl | rfl | rfl := hsize <;> simp [HostAccess.legal, sizeBytes, ha]
  · obtain rfl | rfl | rfl | rfl := hsize <;> simp [HostAccess.legal, sizeBytes, ha, Nat.not_lt.mp ha, Nat.mod_one]

theorem State.hostAccess_illegal (s : State) {a : HostAccess} (h : a.legal = false) :
    s.hostAccess a = s.badAccess a := by
  simp [State.hostAccess, h]

theorem State.badAccess_accerr (s : State) (a : HostAccess) : (s.badAccess a).accerr = true := by
  unfold State.badAccess
  cases a.wr <;> rfl

/-- Settles O17: the legal accesses by `legal_iff`; both forms of an illegal access set ACCERR. -/
theorem legalAccessesAreTheListedOnes : Obligations.LegalAccessesAreTheListedOnes := by
  unfold Obligations.LegalAccessesAreTheListedOnes
  refine fun a => ⟨a.legal_iff, fun h s => ?_, fun h ha => ?_⟩
  · rw [s.hostAccess_illegal h, s.badAccess_accerr]
  · obtain ⟨-, hsize, hmod⟩ | ⟨hge, -⟩ := a.legal_iff.mp h
    · rw [hsize]
      show a.addr.toNat + 4 ≤ 0x40
      omega
    · omega

/-- The offsets that name nothing (R53, R63). -/
theorem target_reserved {addr : BitVec 7}
    (h : (0x0C ≤ addr.toNat ∧ addr.toNat < 0x10) ∨ (0x20 ≤ addr.toNat ∧ addr.toNat < 0x40)) :
    target addr = .reserved := by
  revert addr
  decide

theorem target_buf (z : BitVec 6) : target (BitVec.ofNat 7 (0x40 + z.toNat)) = .buf z := by
  have hz := z.isLt
  have ha : (BitVec.ofNat 7 (0x40 + z.toNat)).toNat = 0x40 + z.toNat := by
    rw [BitVec.toNat_ofNat]
    omega
  unfold target
  rw [if_pos (by omega), ha, Nat.add_sub_cancel_left, BitVec.ofNat_toNat, BitVec.setWidth_eq]

/-- Settles O18: the seven registers by evaluation, the reserved offsets and the buffer by their lemmas. -/
theorem registerWindowMap : Obligations.RegisterWindowMap := by
  unfold Obligations.RegisterWindowMap
  exact ⟨rfl, rfl, rfl, rfl, rfl, rfl, rfl, fun _ => target_reserved, target_buf⟩

/-! ### The IV registers (R31, R61, R62) -/

/-- Settles O24: an IV register's read is a read of the field, and its write depends on BUSY alone. -/
theorem ivRegisterAccess : Obligations.IvRegisterAccess := by
  unfold Obligations.IvRegisterAccess
  refine fun s n w => ⟨memRead_iv s n, fun h => ?_, fun h => ?_⟩
  · rw [memWrite_iv, State.hostWrite, h]; rfl
  · rw [memWrite_iv, State.hostWrite, h]; rfl

/-! ### The buffer's byte order (R56, R57) -/

/-- A 32-bit word is its four bytes. -/
theorem word_eq_of_bytes {v w : Word32} (h : ∀ j < 4, v.extractLsb' (8 * j) 8 = w.extractLsb' (8 * j) 8) : v = w := by
  apply BitVec.eq_of_getLsbD_eq
  intro i hi
  have hbit := congrArg (BitVec.getLsbD · (i % 8)) (h (i / 8) (by omega))
  simpa [Nat.mod_lt, Nat.div_add_mod] using hbit

/-- The bytes of word `m` of a buffer (R56). -/
theorem bufWord_bytes (buf : Vector Byte 64) (m : Fin 16) :
    (bufWord buf m).extractLsb' 0 8 = buf[4 * m.val] ∧ (bufWord buf m).extractLsb' 8 8 = buf[4 * m.val + 1] ∧
      (bufWord buf m).extractLsb' 16 8 = buf[4 * m.val + 2] ∧
      (bufWord buf m).extractLsb' 24 8 = buf[4 * m.val + 3] := by
  unfold bufWord
  refine ⟨BitVec.extractLsb'_append_eq_right, ?_, ?_, ?_⟩
  · rw [BitVec.extractLsb'_append_eq_of_le (by decide), BitVec.extractLsb'_append_eq_right]
  · rw [BitVec.extractLsb'_append_eq_of_le (by decide), BitVec.extractLsb'_append_eq_of_le (by decide),
      BitVec.extractLsb'_append_eq_right]
  · rw [BitVec.extractLsb'_append_eq_of_le (by decide), BitVec.extractLsb'_append_eq_of_le (by decide),
      BitVec.extractLsb'_append_eq_left]

/-- Byte `j` of word `m` of the buffer is the buffer byte `4m + j` (R56). -/
theorem bufWord_byte (s : State) (m : Fin 16) {j : Nat} (hj : j < 4) :
    (bufWord s.buffer m).extractLsb' (8 * j) 8 = s.bufRead (BitVec.ofNat 6 (4 * m.val + j)) := by
  have hget {n : Nat} (h : n < 64) : s.buffer[n] = s.bufRead (BitVec.ofNat 6 n) := by
    rw [s.buffer_getElem h]
    congr 1
    exact BitVec.eq_of_toNat_eq (by simpa using (Nat.mod_eq_of_lt h).symm)
  obtain ⟨h₀, h₁, h₂, h₃⟩ := bufWord_bytes s.buffer m
  rw [← hget (by omega)]
  interval_cases j
  · exact h₀
  · exact h₁
  · exact h₂
  · exact h₃

/-! ### Accesses to the buffer while the engine is not busy (R61) -/

theorem hostAccess_memRead_idle {s : State} {addr n : Nat} (hs : s.busy = false) (hn : n ∈ [1, 2, 4])
    (ha : 0x40 ≤ addr) (hb : addr < 0x80) (hm : addr % n = 0) :
    s.hostAccess (memRead addr n) = { s with rdata := some (s.bufReadLE (BitVec.ofNat 6 (addr - 0x40)) n) } := by
  rw [memRead_buf s hn ha hb hm, State.hostRead, hs]; rfl

theorem hostAccess_memWrite_idle {s : State} {addr n : Nat} (hs : s.busy = false) (hn : n ∈ [1, 2, 4])
    (ha : 0x40 ≤ addr) (hb : addr < 0x80) (hm : addr % n = 0) (w : Word32) :
    s.hostAccess (memWrite addr n w) = s.bufWriteLE (BitVec.ofNat 6 (addr - 0x40)) n w := by
  rw [memWrite_buf s w hn ha hb hm, State.hostWrite, hs]; rfl

theorem access_le_four {n : Nat} (hn : n ∈ [1, 2, 4]) : n ≤ 4 := by
  revert n; decide

/-- Settles O25: the read is `bufReadLE`, whose bytes and bound are known; a word is its four bytes. -/
theorem bufferReadIsLittleEndian : Obligations.BufferReadIsLittleEndian := by
  unfold Obligations.BufferReadIsLittleEndian
  intro s addr n hs hn ha hb hm
  have hbyte : ∀ j < n, (s.bufReadLE (BitVec.ofNat 6 (addr - 0x40)) n).extractLsb' (8 * j) 8 =
      s.bufRead (BitVec.ofNat 6 (addr - 0x40 + j)) := fun j hj => by
    rw [s.bufReadLE_byte (access_le_four hn) _ hj, BitVec.ofNat_add]
  refine ⟨_, hostAccess_memRead_idle hs hn ha hb hm, hbyte, s.bufReadLE_lt _ _, ?_⟩
  rintro m rfl rfl
  refine word_eq_of_bytes fun j hj => ?_
  rw [hbyte j hj, bufWord_byte s m hj, Nat.add_sub_cancel_left]

/-- Settles O26: the write is `bufWriteLE`, whose bytes and frame are known. -/
theorem bufferWriteIsLittleEndian : Obligations.BufferWriteIsLittleEndian := by
  unfold Obligations.BufferWriteIsLittleEndian
  intro s addr n w hs hn ha hb hm
  have hf := s.bufWriteLE_frame n (BitVec.ofNat 6 (addr - 0x40)) w
  refine ⟨_, hostAccess_memWrite_idle hs hn ha hb hm w, fun j hj => ?_, fun y hy => ?_, hf.lanes, hf.carry, hf.z,
    s.bufWriteLE_shell _ _ _⟩
  · rw [BitVec.ofNat_add, State.bufRead_bufWriteLE (access_le_four hn) s _ w hj]
  · refine State.bufRead_bufWriteLE_other n s _ w fun j hj e => ?_
    have haddr : (BitVec.ofNat 6 (addr - 0x40)).toNat = addr - 0x40 := by
      rw [BitVec.toNat_ofNat]
      omega
    have hfit : addr - 0x40 + j < 64 := by
      simp only [List.mem_cons, List.not_mem_nil, or_false] at hn
      obtain rfl | rfl | rfl := hn <;> omega
    have hsum := toNat_add_ofNat (y := BitVec.ofNat 6 (addr - 0x40)) (j := j) (by omega)
    rw [← e] at hsum
    omega

/-- Settles O27: the word's byte is the buffer byte just written. -/
theorem byteWriteSeenByWordRead : Obligations.ByteWriteSeenByWordRead := by
  unfold Obligations.ByteWriteSeenByWordRead
  intro s z v hs
  have hz := z.isLt
  have hw := hostAccess_memWrite_idle (addr := 0x40 + z.toNat) hs (n := 1) (by decide) (by omega) (by omega)
    (Nat.mod_one _) v
  rw [hw, Nat.add_sub_cancel_left, BitVec.ofNat_toNat, BitVec.setWidth_eq]
  have hbusy : (s.bufWriteLE z 1 v).busy = false := by
    rw [State.busy_eq_false, (s.bufWriteLE_shell 1 z v).phase, ← State.busy_eq_false, hs]
  have hpos : BitVec.ofNat 6 (4 * (z.toNat / 4)) + BitVec.ofNat 6 (z.toNat % 4) = z := by
    rw [← BitVec.ofNat_add, Nat.div_add_mod, BitVec.ofNat_toNat, BitVec.setWidth_eq]
  rw [hostAccess_memRead_idle hbusy (by decide) (by omega) (by omega) (by omega), Nat.add_sub_cancel_left]
  refine ⟨_, rfl, ?_, fun a ha hsize => ?_⟩
  · have hnew := State.bufRead_bufWriteLE (n := 1) (by decide) s z v (j := 0) (by decide)
    rw [BitVec.add_zero] at hnew
    rw [State.bufReadLE_byte _ (by decide) _ (Nat.mod_lt _ (by decide)), hpos, hnew]
    exact (BitVec.setWidth_eq_extractLsb' (by decide)).symm
  · rw [← Bool.not_eq_true, a.legal_iff]
    rintro (⟨-, h, -⟩ | ⟨h, -⟩)
    · exact hsize h
    · omega

/-! ### Accesses while busy, reserved places, and illegal accesses (R62 to R64) -/

theorem State.writeCtrl_busy {s : State} (h : s.busy = true) (w : Word32) :
    s.writeCtrl w = { s with ie := w.getLsbD 1, accerr := s.accerr || w.getLsbD 0 } := by
  unfold State.writeCtrl
  rw [h]
  cases w.getLsbD 0
  · simp [State.writeIe]
  · simp [State.writeIe, State.raiseAccessError, State.writeAccerr]

theorem State.writeStatus_eq (s : State) (w : Word32) :
    s.writeStatus w = { s with done := s.done && !w.getLsbD 1, accerr := s.accerr && !w.getLsbD 2 } := by
  unfold State.writeStatus
  cases w.getLsbD 1 <;> cases w.getLsbD 2 <;> simp [State.writeDone, State.writeAccerr]

/-- A legal access below the buffer is of 4 bytes (R57, R58). -/
theorem HostAccess.legal_register {a : HostAccess} {n : Nat} (hl : a.legal = true) (hn : sizeBytes a.size = some n)
    (ht : ∀ z, target a.addr ≠ .buf z) : n = 4 := by
  obtain ⟨-, hsize, -⟩ | ⟨hge, -⟩ := a.legal_iff.mp hl
  · rw [hsize] at hn; cases hn; rfl
  · exact absurd (by rw [target, if_pos hge]) (ht (BitVec.ofNat 6 (a.addr.toNat - 0x40)))

theorem State.hostRead_register (s : State) (size : BitVec 2) (n : Nat) {g : Target} (h : ∀ z, g ≠ .buf z) :
    s.hostRead size n g = s.putRdata (s.readTarget n g) := by
  cases g with
  | buf z => exact absurd rfl (h z)
  | ctrl => rfl
  | status => rfl
  | config => rfl
  | iv n => rfl
  | reserved => rfl

/-- Settles O28: by the access's target. -/
theorem accessWhileBusy : Obligations.AccessWhileBusy := by
  unfold Obligations.AccessWhileBusy
  intro s a hb hl
  obtain ⟨n, hn⟩ := HostAccess.legal_size hl
  have hread (hw : a.wr = false) := s.hostAccess_read hl hw hn
  have hwrite (hw : a.wr = true) := s.hostAccess_write hl hw hn
  refine ⟨fun hw ht => ?_, fun hw z ht => ?_, fun hw ht => ?_, fun hw ht => ?_, fun hw ht => ?_, fun hw ht => ?_⟩
  · rw [hread hw, s.hostRead_register _ _ ht, HostAccess.legal_register hl hn ht]; rfl
  · rw [hread hw, ht, State.hostRead, hb]
    exact ⟨_, rfl⟩
  · rw [hwrite hw]
    obtain ⟨m, ht⟩ | ⟨z, ht⟩ := ht <;> rw [ht, State.hostWrite, hb] <;> rfl
  · rw [hwrite hw, ht, State.hostWrite, State.writeCtrl_busy hb]
  · rw [hwrite hw, ht, State.hostWrite, State.writeStatus_eq]
  · rw [hwrite hw]
    obtain ht | ht := ht <;> rw [ht, State.hostWrite]

/-- A register's value of `n` bits reads 0 above them. -/
theorem setWidth_shiftRight_width {n : Nat} (x : BitVec n) : (x.setWidth 32 : Word32) >>> n = 0 := by
  apply BitVec.eq_of_getLsbD_eq
  intro i _
  simp

/-- Settles O29: reserved places by their target, reserved bits by what the writes look at and the values' widths. -/
theorem reservedReadsZeroIgnoresWrites : Obligations.ReservedReadsZeroIgnoresWrites := by
  unfold Obligations.ReservedReadsZeroIgnoresWrites
  refine fun s => ⟨fun a hl ha => ?_, fun w => ⟨memWrite_config s w, ?_, ?_⟩, ?_, ?_, ?_⟩
  · obtain ⟨n, hn⟩ := HostAccess.legal_size hl
    have ht := target_reserved ha
    cases hw : a.wr with
    | true => rw [s.hostAccess_write hl hw hn, ht]; rfl
    | false => rw [s.hostAccess_read hl hw hn, ht]; rfl
  · rw [memWrite_ctrl, memWrite_ctrl]
    simp [State.writeCtrl]
  · rw [memWrite_status, memWrite_status]
    simp [State.writeStatus_eq]
  · exact setWidth_shiftRight_width _
  · exact setWidth_shiftRight_width _
  · exact setWidth_shiftRight_width _

/-- Settles O30: the two forms of `badAccess`; the value read is cut to the access's width. -/
theorem illegalAccessOnlySetsAccerr : Obligations.IllegalAccessOnlySetsAccerr := by
  unfold Obligations.IllegalAccessOnlySetsAccerr
  refine fun s a hl => ⟨fun hw => ?_, fun hw => ?_⟩
  · rw [s.hostAccess_illegal hl, State.badAccess, hw]; rfl
  · rw [s.hostAccess_illegal hl, State.badAccess, hw]
    refine ⟨_, rfl, fun h => ?_, fun h => ?_⟩
    · rw [h]; exact lowBytes_lt 1 _
    · rw [h]; exact lowBytes_lt 2 _

end Machine
end Sys2Proof
end

section
/-! The encoding of spec/30_encoding.md: the decoder as the inverse of the encoder (R81 to R83) and the decode table by
mask and match (R84, R91). -/

namespace Sys2Proof

/-! ### A word and its four fields (R81) -/

theorem fields_append (u : MicroWord) : opField u ++ rsvField u ++ aField u ++ bField u = u := by
  rw [opField, rsvField, aField, bField, BitVec.extractLsb'_append_extractLsb'_eq_extractLsb' (by rfl),
    BitVec.extractLsb'_append_extractLsb'_eq_extractLsb' (by rfl),
    BitVec.extractLsb'_append_extractLsb'_eq_extractLsb' (by rfl)]
  exact BitVec.extractLsb'_eq_self

/-- A word is its four fields. -/
theorem word_ext_iff {u v : MicroWord} :
    u = v ↔ opField u = opField v ∧ rsvField u = rsvField v ∧ aField u = aField v ∧ bField u = bField v := by
  constructor
  · rintro rfl; exact ⟨rfl, rfl, rfl, rfl⟩
  · rintro ⟨hop, hrsv, ha, hb⟩
    rw [← fields_append u, ← fields_append v, hop, hrsv, ha, hb]

@[simp] theorem laneField_zero : laneField 0 = 0 := rfl

/-- A format R word is the encoder's, with the lanes its fields name. -/
theorem wordR_of_fields {u : MicroWord} {op : BitVec 3} (hop : opField u = op) (hrsv : rsvField u = 0) :
    wordR op (laneOf (aField u)) (laneOf (bField u)) = u := by
  subst hop
  refine word_ext_iff.mpr ?_
  simpa using ⟨hrsv.symm, rfl, rfl⟩

/-- A format U or M word is the encoder's, with the lane its field `A` names. -/
theorem wordUM_of_fields {u : MicroWord} {op : BitVec 3} (hop : opField u = op) (hrsv : rsvField u = 0)
    (hb : bField u = 0) : wordUM op (laneOf (aField u)) = u := by
  rw [wordUM_eq_wordR, show (0 : LaneIx) = laneOf (bField u) by rw [hb]; rfl]
  exact wordR_of_fields hop hrsv

/-- The words of format R with a given `OP` (R82). -/
theorem exists_wordR_iff (u : MicroWord) (op : BitVec 3) :
    (∃ a b, u = wordR op a b) ↔ opField u = op ∧ rsvField u = 0 := by
  constructor
  · rintro ⟨a, b, rfl⟩; simp
  · rintro ⟨hop, hrsv⟩
    exact ⟨_, _, (wordR_of_fields hop hrsv).symm⟩

/-- The words of format U or M with a given `OP` (R82). -/
theorem exists_wordUM_iff (u : MicroWord) (op : BitVec 3) :
    (∃ a, u = wordUM op a) ↔ opField u = op ∧ rsvField u = 0 ∧ bField u = 0 := by
  constructor
  · rintro ⟨a, rfl⟩; simp [wordUM_eq_wordR]
  · rintro ⟨hop, hrsv, hb⟩
    exact ⟨_, (wordUM_of_fields hop hrsv hb).symm⟩

/-! ### The decoder by the fields (R82 to R84) -/

/-- A format U or M word decodes to a micro-operation only with `B` 0. -/
theorem oneLane_eq_ok_iff {u : MicroWord} {mk : LaneIx → Instr} {i : Instr} :
    oneLane u mk = .ok i ↔ bField u = 0 ∧ mk (laneOf (aField u)) = i := by
  unfold oneLane
  split
  · next hb => simp [hb]
  · next hb => exact ⟨nofun, fun h => absurd h.1 hb⟩

theorem oneLane_isError_iff {u : MicroWord} {mk : LaneIx → Instr} :
    (∃ e, oneLane u mk = .error e) ↔ bField u ≠ 0 := by
  unfold oneLane
  split
  · next hb => simp [hb]
  · next hb => exact ⟨fun _ => hb, fun _ => ⟨_, rfl⟩⟩

theorem encode_of_oneLane {u : MicroWord} {op : BitVec 3} {mk : LaneIx → Instr} {i : Instr} (hop : opField u = op)
    (hrsv : rsvField u = 0) (hmk : ∀ a, encode (mk a) = wordUM op a) (h : oneLane u mk = .ok i) : encode i = u := by
  obtain ⟨hb, rfl⟩ := oneLane_eq_ok_iff.mp h
  rw [hmk, wordUM_of_fields hop hrsv hb]

/-- The encoder undoes the decoder: a word has at most one meaning (R82, R83). -/
theorem encode_of_decode {u : MicroWord} {i : Instr} (h : decode u = .ok i) : encode i = u := by
  unfold decode at h
  split at h
  · cases h
  · next hrsv =>
    have hrsv : rsvField u = 0 := not_not.mp hrsv
    split at h
    · next hop => cases h; exact wordR_of_fields (BitVec.eq_of_toNat_eq hop) hrsv
    · next hop => cases h; exact wordR_of_fields (BitVec.eq_of_toNat_eq hop) hrsv
    · next hop => exact encode_of_oneLane (BitVec.eq_of_toNat_eq (y := 0b010#3) hop) hrsv (fun _ => rfl) h
    · next hop => exact encode_of_oneLane (BitVec.eq_of_toNat_eq (y := 0b100#3) hop) hrsv (fun _ => rfl) h
    · next hop => exact encode_of_oneLane (BitVec.eq_of_toNat_eq (y := 0b101#3) hop) hrsv (fun _ => rfl) h
    · next hop => exact encode_of_oneLane (BitVec.eq_of_toNat_eq (y := 0b110#3) hop) hrsv (fun _ => rfl) h
    · cases h

/-- Settles O42: a word the decoder accepts is put together again from its four fields. -/
theorem decodeEncodeAgree : Obligations.DecodeEncodeAgree := by
  unfold Obligations.DecodeEncodeAgree
  exact ⟨decode_encode, fun _ _ => encode_of_decode⟩

/-- The decoder and the encoder are inverse to each other. -/
theorem decode_eq_ok_iff {u : MicroWord} {i : Instr} : decode u = .ok i ↔ u = encode i :=
  ⟨fun h => (encode_of_decode h).symm, fun h => h ▸ decode_encode i⟩

/-- The two `OP` codes R84 reserves. -/
theorem op_reserved_of_unused {op : BitVec 3} (h0 : op.toNat ≠ 0) (h1 : op.toNat ≠ 1) (h2 : op.toNat ≠ 2)
    (h4 : op.toNat ≠ 4) (h5 : op.toNat ≠ 5) (h6 : op.toNat ≠ 6) : op = 0b011 ∨ op = 0b111 := by
  bv_omega

/-- The words the decoder rejects (R84). -/
theorem decode_isError_iff (u : MicroWord) :
    (∃ e, decode u = .error e) ↔
      opField u = 0b011 ∨ opField u = 0b111 ∨ rsvField u ≠ 0 ∨
        ((opField u = 0b010 ∨ opField u = 0b100 ∨ opField u = 0b101 ∨ opField u = 0b110) ∧ bField u ≠ 0) := by
  unfold decode
  split
  · next hrsv => exact ⟨fun _ => .inr (.inr (.inl hrsv)), fun _ => ⟨_, rfl⟩⟩
  · next hrsv =>
    have hrsv : rsvField u = 0 := not_not.mp hrsv
    split
    · next hop => simp [BitVec.eq_of_toNat_eq (y := 0b000#3) hop, hrsv]
    · next hop => simp [BitVec.eq_of_toNat_eq (y := 0b001#3) hop, hrsv]
    · next hop => simp [BitVec.eq_of_toNat_eq (y := 0b010#3) hop, hrsv, oneLane_isError_iff]
    · next hop => simp [BitVec.eq_of_toNat_eq (y := 0b100#3) hop, hrsv, oneLane_isError_iff]
    · next hop => simp [BitVec.eq_of_toNat_eq (y := 0b101#3) hop, hrsv, oneLane_isError_iff]
    · next hop => simp [BitVec.eq_of_toNat_eq (y := 0b110#3) hop, hrsv, oneLane_isError_iff]
    · next h0 h1 h2 h4 h5 h6 =>
      obtain hop | hop := op_reserved_of_unused h0 h1 h2 h4 h5 h6 <;> simp [hop]

/-! ### The decode table by mask and match (R91) -/

theorem opField_and (u v : MicroWord) : opField (u &&& v) = opField u &&& opField v := BitVec.extractLsb'_and

theorem rsvField_and (u v : MicroWord) : rsvField (u &&& v) = rsvField u &&& rsvField v := BitVec.extractLsb'_and

theorem aField_and (u v : MicroWord) : aField (u &&& v) = aField u &&& aField v := BitVec.extractLsb'_and

theorem bField_and (u v : MicroWord) : bField (u &&& v) = bField u &&& bField v := BitVec.extractLsb'_and

/-- The mask `0xF00` keeps `OP` and `RSV`. -/
theorem and_maskR (u : MicroWord) (op : BitVec 3) :
    u &&& 0xF00 = wordR op 0 0 ↔ opField u = op ∧ rsvField u = 0 := by
  have hop : opField 0xF00 = BitVec.allOnes 3 := by decide
  have hrsv : rsvField 0xF00 = BitVec.allOnes 1 := by decide
  have ha : aField 0xF00 = 0 := by decide
  have hb : bField 0xF00 = 0 := by decide
  rw [word_ext_iff, opField_and, rsvField_and, aField_and, bField_and, hop, hrsv, ha, hb,
    BitVec.and_allOnes, BitVec.and_allOnes]
  simp

/-- The mask `0xF0F` keeps `OP`, `RSV` and `B`. -/
theorem and_maskUM (u : MicroWord) (op : BitVec 3) :
    u &&& 0xF0F = wordUM op 0 ↔ opField u = op ∧ rsvField u = 0 ∧ bField u = 0 := by
  have hop : opField 0xF0F = BitVec.allOnes 3 := by decide
  have hrsv : rsvField 0xF0F = BitVec.allOnes 1 := by decide
  have ha : aField 0xF0F = 0 := by decide
  have hb : bField 0xF0F = BitVec.allOnes 4 := by decide
  rw [word_ext_iff, opField_and, rsvField_and, aField_and, bField_and, hop, hrsv, ha, hb,
    BitVec.and_allOnes, BitVec.and_allOnes, BitVec.and_allOnes]
  simp [wordUM_eq_wordR]

theorem and_maskR_iff_exists_decode {op : BitVec 3} {mk : LaneIx → LaneIx → Instr}
    (hmk : ∀ a b, encode (mk a b) = wordR op a b) (u : MicroWord) :
    u &&& 0xF00 = wordR op 0 0 ↔ ∃ a b, decode u = .ok (mk a b) := by
  simp only [decode_eq_ok_iff, hmk, exists_wordR_iff, and_maskR]

theorem and_maskUM_iff_exists_decode {op : BitVec 3} {mk : LaneIx → Instr}
    (hmk : ∀ a, encode (mk a) = wordUM op a) (u : MicroWord) :
    u &&& 0xF0F = wordUM op 0 ↔ ∃ a, decode u = .ok (mk a) := by
  simp only [decode_eq_ok_iff, hmk, exists_wordUM_iff, and_maskUM]

theorem rsvField_ne_zero_iff (u : MicroWord) : rsvField u ≠ 0 ↔ u.getLsbD 8 = true := by
  rw [BitVec.getLsbD_eq_extractLsb', ← rsvField]
  generalize rsvField u = r
  revert r
  decide

/-- Settles O43: each mask and match says of the fields what the encoder's words have there. -/
theorem decodeTableByMask : Obligations.DecodeTableByMask := by
  unfold Obligations.DecodeTableByMask
  intro u
  refine ⟨?_, ?_, ?_, ?_, ?_, ?_, ?_⟩
  · exact and_maskR_iff_exists_decode (op := 0b000) (fun _ _ => rfl) u
  · exact and_maskR_iff_exists_decode (op := 0b001) (fun _ _ => rfl) u
  · exact and_maskUM_iff_exists_decode (op := 0b010) (fun _ => rfl) u
  · exact and_maskUM_iff_exists_decode (op := 0b100) (fun _ => rfl) u
  · exact and_maskUM_iff_exists_decode (op := 0b101) (fun _ => rfl) u
  · exact and_maskUM_iff_exists_decode (op := 0b110) (fun _ => rfl) u
  · rw [decode_isError_iff, rsvField_ne_zero_iff]
    rfl

/-- Settles O44: the accepted words are the encoder's, the rejected ones are evaluated. -/
theorem specWordsDecode : Obligations.SpecWordsDecode := by
  unfold Obligations.SpecWordsDecode
  refine ⟨decode_encode (.adc 0 1), decode_encode (.adc 15 3), decode_encode (.xor 5 5), decode_encode (.xor 3 0),
    decode_encode (.swap 2), decode_encode (.madc 0), decode_encode (.msbc 15), decode_encode (.mxor 11), ?_⟩
  decide

end Sys2Proof
end

section
/-! The ROMs of spec/30_encoding.md: which words give a program, the mixer ROM's listing, and the refusal of an
ill-formed ROM (R84, R86, R88 to R90). -/

namespace Sys2Proof

theorem Instr.isRound_iff (i : Instr) :
    i.isRound = true ↔ (∃ a b, i = .adc a b) ∨ (∃ a b, i = .xor a b) ∨ ∃ a, i = .swap a := by
  cases i <;> simp [Instr.isRound]

/-- The words a round-function ROM may hold (R86). -/
theorem decode_round_iff (u : MicroWord) :
    (∃ i, decode u = .ok i ∧ i.isRound = true) ↔
      (∃ a b, decode u = .ok (.adc a b)) ∨ (∃ a b, decode u = .ok (.xor a b)) ∨ ∃ a, decode u = .ok (.swap a) := by
  cases decode u with
  | error e => simp
  | ok i => simp [Instr.isRound_iff]

theorem Instr.mixerLane?_eq_some_iff (i : Instr) (n : LaneIx) :
    i.mixerLane? = some n ↔ i = .madc n ∨ i = .msbc n ∨ i = .mxor n := by
  cases i <;> simp [Instr.mixerLane?]

/-- A well-formed mixer schedule, entry by entry (R90). -/
theorem MixTable.wf_iff {t : List Instr} (hlen : t.length = 16) :
    MixTable.wf t = true ↔ ∀ n : Fin 16, t[n].mixerLane? = some n := by
  rw [MixTable.wf, beq_iff_eq, List.ext_getElem_iff]
  simp only [List.length_map, hlen, List.length_finRange, List.getElem_map, List.getElem_finRange, true_and]
  exact ⟨fun h n => h n n.isLt n.isLt, fun h n hn _ => h ⟨n, hn⟩⟩

namespace Machine

theorem mem_decodeAll {rom : List MicroWord} {t : List Instr} (h : decodeAll rom = some t) (i : Instr) :
    i ∈ t ↔ ∃ u ∈ rom, decode u = .ok i := by
  simp only [List.mem_iff_getElem?, decodeAll_getElem? h]
  exact ⟨fun ⟨n, u, hu, hd⟩ => ⟨u, ⟨n, hu⟩, hd⟩, fun ⟨u, ⟨n, hu⟩, hd⟩ => ⟨n, u, hu, hd⟩⟩

/-- A round-function ROM is a program exactly when it is short enough and each word decodes to an operation of the round
function (R84, R86). -/
theorem rfProgram_isSome_iff (rom : List MicroWord) :
    (rfProgram rom).isSome = true ↔ rom.length ≤ 255 ∧ ∀ u ∈ rom, ∃ i, decode u = .ok i ∧ i.isRound = true := by
  constructor
  · intro h
    obtain ⟨t, ht⟩ := Option.isSome_iff_exists.mp h
    refine ⟨rfProgram_length_le ht, fun u hu => ?_⟩
    obtain ⟨hdec, -⟩ := rfProgram_eq_some.mp ht
    obtain ⟨i, hi⟩ := (decodeAll_isSome rom).mp (by rw [hdec]; rfl) u hu
    obtain ⟨n, hn⟩ := List.getElem?_of_mem hu
    exact ⟨i, hi, rfProgram_isRound ht (rfProgram_getElem? ht hn hi)⟩
  · rintro ⟨hlen, hround⟩
    have hall : ∀ u ∈ rom, ∃ i, decode u = .ok i := fun u hu => (hround u hu).imp fun _ h => h.1
    obtain ⟨t, ht⟩ := Option.isSome_iff_exists.mp ((decodeAll_isSome rom).mpr hall)
    have hwf : RfTable.wf t = true := by
      simp only [RfTable.wf, Bool.and_eq_true, decide_eq_true_eq, List.all_eq_true]
      refine ⟨decodeAll_length ht ▸ hlen, fun i hi => ?_⟩
      obtain ⟨u, hu, hd⟩ := (mem_decodeAll ht i).mp hi
      obtain ⟨j, hj, hr⟩ := hround u hu
      cases hd.symm.trans hj
      exact hr
    rw [rfProgram_eq_some.mpr ⟨ht, hwf⟩]
    rfl

/-- A mixer ROM is a program exactly when each word decodes to an operation of format M on the entry's lane
(R84, R90). -/
theorem mixProgram_isSome_iff (rom : Vector MicroWord 16) :
    (mixProgram rom).isSome = true ↔ ∀ n : Fin 16, ∃ i, decode rom[n] = .ok i ∧ i.mixerLane? = some n := by
  constructor
  · intro h n
    obtain ⟨t, ht⟩ := Option.isSome_iff_exists.mp h
    obtain ⟨hdec, -⟩ := mixProgram_eq_some.mp ht
    obtain ⟨i, hi⟩ := (decodeAll_isSome rom.toList).mp (by rw [hdec]; rfl) rom[n] (by simp)
    exact ⟨i, hi, mixProgram_lane ht n (mixProgram_getElem? ht n hi)⟩
  · intro hlane
    have hall : ∀ u ∈ rom.toList, ∃ i, decode u = .ok i := fun u hu => by
      obtain ⟨n, hn, rfl⟩ := List.getElem_of_mem hu
      exact (hlane ⟨n, by simpa using hn⟩).imp fun _ h => h.1
    obtain ⟨t, ht⟩ := Option.isSome_iff_exists.mp ((decodeAll_isSome rom.toList).mpr hall)
    have hlen : t.length = 16 := by simpa using decodeAll_length ht
    have hwf : MixTable.wf t = true := (MixTable.wf_iff hlen).mpr fun n => by
      obtain ⟨i, hi, hl⟩ := hlane n
      obtain ⟨_, hn⟩ := List.getElem?_eq_some_iff.mp ((decodeAll_getElem? ht n.val i).mpr ⟨rom[n], by simp, hi⟩)
      rw [Fin.getElem_fin, hn, hl]
    rw [mixProgram_eq_some.mpr ⟨ht, hwf⟩]
    rfl

theorem engineStep_illFormedRfRom {s : State} (hp : s.phase = .init ∨ s.phase = .rf)
    (hr : rfProgram s.rfRom = none) : engineStep s = .refused .illFormedRfRom := by
  obtain hp | hp := hp
  · simp [engineStep, hp, runInit, hr]
  · simp [engineStep, hp, runMicroOp, State.fetchRf, hr]

theorem engineStep_illFormedMixRom {s : State}
    (hp : (s.phase = .init ∧ (rfProgram s.rfRom).isSome = true) ∨ s.phase = .mix)
    (hm : mixProgram s.mixRom = none) : engineStep s = .refused .illFormedMixRom := by
  obtain ⟨hp, hr⟩ | hp := hp
  · obtain ⟨t, ht⟩ := Option.isSome_iff_exists.mp hr
    simp [engineStep, hp, runInit, ht, hm]
  · simp [engineStep, hp, runMicroOp, State.fetchMix, hm]

/-- Settles O48: the ROMs that give a program, word by word, and the step of each phase with an ill-formed ROM. -/
theorem illFormedRomsAreRefused : Obligations.IllFormedRomsAreRefused := by
  unfold Obligations.IllFormedRomsAreRefused
  refine ⟨fun rom => ?_, fun rom => ?_, fun _ => engineStep_illFormedRfRom, fun _ => engineStep_illFormedMixRom⟩
  · rw [rfProgram_isSome_iff]
    simp only [decode_round_iff]
  · rw [mixProgram_isSome_iff]
    simp only [Instr.mixerLane?_eq_some_iff, and_or_left, exists_or, exists_eq_right]

/-- Settles O45: the listing's program is known, and encoding the schedule evaluates to the listing. -/
theorem mixerRomIsTheSchedule : Obligations.MixerRomIsTheSchedule := by
  unfold Obligations.MixerRomIsTheSchedule
  exact ⟨mixProgram_mixRomListing, by decide, rfl⟩

end Machine
end Sys2Proof
end

section
/-! The lines of assembly of spec/30_encoding.md: the tokens of a printed line, and that reading a line undoes the
printing (R92, R93). -/

namespace Sys2Proof
namespace Machine

/-! ### The tokens of a printed line (R92) -/

/-- A character `tokens` takes into a token as it stands, and no beginning of a comment. -/
def isTokenChar (c : Char) : Bool := lowerChar c == c && [' ', '\t', ',', ';'].all (c != ·)

theorem isTokenChar_iff (c : Char) :
    isTokenChar c = true ↔ lowerChar c = c ∧ c ≠ ' ' ∧ c ≠ '\t' ∧ c ≠ ',' ∧ c ≠ ';' := by
  simp [isTokenChar]

/-- A token as `tokens` gives it: not empty, in lower case, without a separator. -/
abbrev IsToken (w : List Char) : Prop := w ≠ [] ∧ w.all isTokenChar = true

theorem IsToken.semicolon_not_mem {w : List Char} (h : IsToken w) : ';' ∉ w := fun hmem => by
  obtain ⟨-, -, -, -, hne⟩ := (isTokenChar_iff _).mp (List.all_eq_true.mp h.2 _ hmem)
  exact hne rfl

/-- The characters of a token go to the end of the token being read. -/
theorem tokens_append {w : List Char} (hw : w.all isTokenChar = true) (tok cs : List Char) :
    tokens tok (w ++ cs) = tokens (tok ++ w) cs := by
  induction w generalizing tok with
  | nil => simp
  | cons c w ih =>
    obtain ⟨hc, hw⟩ := Bool.and_eq_true_iff.mp hw
    obtain ⟨hlower, hblank, htab, hcomma, -⟩ := (isTokenChar_iff c).mp hc
    rw [List.cons_append, tokens, if_neg (by simp [hblank, htab]), if_neg hcomma, ih hw, hlower]
    simp

theorem tokens_token_append {w : List Char} (h : IsToken w) (cs : List Char) : tokens [] (w ++ cs) = tokens w cs :=
  tokens_append h.2 [] cs

theorem flushToken_token {w : List Char} (h : IsToken w) (rest : List (List Char)) :
    flushToken w rest = w :: rest :=
  if_neg h.1

/-- A blank ends a token. -/
theorem tokens_token_blank {w : List Char} (h : IsToken w) (cs : List Char) :
    tokens [] (w ++ ' ' :: cs) = w :: tokens [] cs := by
  rw [tokens_token_append h, tokens, if_pos (.inl rfl), flushToken_token h]

/-- A comma ends a token and is one. -/
theorem tokens_token_comma {w : List Char} (h : IsToken w) (cs : List Char) :
    tokens [] (w ++ ',' :: cs) = w :: [','] :: tokens [] cs := by
  rw [tokens_token_append h, tokens, if_neg (by decide), if_pos rfl, flushToken_token h]

/-- The line's end ends a token. -/
theorem tokens_token_end {w : List Char} (h : IsToken w) : tokens [] w = [w] := by
  have htok := tokens_token_append h []
  rw [List.append_nil] at htok
  rw [htok, tokens, flushToken_token h]

theorem tokens_blank (cs : List Char) : tokens [] (' ' :: cs) = tokens [] cs := rfl

/-! ### The lines of the printed forms (R92) -/

theorem parseLine_printTwo {m a b : List Char} (hm : IsToken m) (ha : IsToken a) (hb : IsToken b) :
    ';' ∉ printTwo m a b ∧ parseLine (printTwo m a b) = asmTwo m a b := by
  have hsemi : ';' ∉ printTwo m a b := by
    simp [printTwo, hm.semicolon_not_mem, ha.semicolon_not_mem, hb.semicolon_not_mem]
  have hline : printTwo m a b = m ++ ' ' :: (a ++ ',' :: ' ' :: b) := by simp [printTwo]
  refine ⟨hsemi, ?_⟩
  rw [parseLine, stripComment_of_not_mem hsemi, hline, tokens_token_blank hm, tokens_token_comma ha, tokens_blank,
    tokens_token_end hb]
  rfl

/-- The mnemonic `swap`. -/
def swapToken : List Char := ['s', 'w', 'a', 'p']

theorem parseLine_printSwap {a : List Char} (ha : IsToken a) :
    ';' ∉ swapToken ++ ' ' :: a ∧ parseLine (swapToken ++ ' ' :: a) = asmOp ((laneToken? a).map .swap) := by
  have hsemi : ';' ∉ swapToken ++ ' ' :: a := by simp [swapToken, ha.semicolon_not_mem]
  refine ⟨hsemi, ?_⟩
  rw [parseLine, stripComment_of_not_mem hsemi, tokens_token_blank (by decide), tokens_token_end ha]
  rfl

/-- A way of writing lanes that gives tokens the assembler reads as those lanes. -/
def WritesLanes (na : LaneIx → List Char) : Prop := ∀ l, IsToken (na l) ∧ laneToken? (na l) = some l

theorem writesLanes_laneName : WritesLanes laneName := by unfold WritesLanes; decide

theorem writesLanes_laneAlias : WritesLanes laneAlias := by unfold WritesLanes; decide

theorem WritesLanes.of_name_or_alias {na : LaneIx → List Char} (h : na = laneName ∨ na = laneAlias) :
    WritesLanes na := by
  obtain rfl | rfl := h
  · exact writesLanes_laneName
  · exact writesLanes_laneAlias

theorem laneToken?_cursorToken : laneToken? cursorToken = none := by decide

/-- No lane is written as the buffer operand. -/
theorem WritesLanes.ne_cursorToken {na : LaneIx → List Char} (h : WritesLanes na) (l : LaneIx) :
    na l ≠ cursorToken := by
  intro he
  have hl := (h l).2
  rw [he, laneToken?_cursorToken] at hl
  cases hl

/-- A line with two operands, the first a lane, is the micro-operation of its three tokens. -/
theorem WritesLanes.parseLine_printTwo_op {na : LaneIx → List Char} (h : WritesLanes na) (a : LaneIx) {m b : List Char}
    {i : Instr} (hm : IsToken m) (hb : IsToken b) (hi : asmTwo m (na a) b = .op i) :
    ';' ∉ printTwo m (na a) b ∧ parseLine (printTwo m (na a) b) = .op i := by
  obtain ⟨hsemi, hparse⟩ := parseLine_printTwo hm (h a).1 hb
  exact ⟨hsemi, hparse.trans hi⟩

/-- A printed line holds no comment and is read as the micro-operation it was printed for (R92). -/
theorem parseLine_printInstrAs {na nb : LaneIx → List Char} (hna : WritesLanes na) (hnb : WritesLanes nb) (i : Instr) :
    ';' ∉ printInstrAs na nb i ∧ parseLine (printInstrAs na nb i) = .op i := by
  cases i with
  | adc a b =>
    refine hna.parseLine_printTwo_op a (by decide) (hnb b).1 ?_
    simp [asmTwo, hnb.ne_cursorToken b, (hna a).2, (hnb b).2, asmOp]
  | xor a b =>
    refine hna.parseLine_printTwo_op a (by decide) (hnb b).1 ?_
    simp [asmTwo, hnb.ne_cursorToken b, (hna a).2, (hnb b).2, asmOp]
  | swap a =>
    obtain ⟨hsemi, hparse⟩ := parseLine_printSwap (hna a).1
    exact ⟨hsemi, hparse.trans (by simp [(hna a).2, asmOp])⟩
  | madc a => exact hna.parseLine_printTwo_op a (by decide) (by decide) (by simp [asmTwo, (hna a).2, asmOp])
  | msbc a => exact hna.parseLine_printTwo_op a (by decide) (by decide) (by simp [asmTwo, (hna a).2, asmOp])
  | mxor a => exact hna.parseLine_printTwo_op a (by decide) (by decide) (by simp [asmTwo, (hna a).2, asmOp])

/-- Settles O46: the printed line is in lower case, and it parses token by token. -/
theorem assemblyRoundTrip : Obligations.AssemblyRoundTrip := by
  unfold Obligations.AssemblyRoundTrip
  intro i na nb line note hna hnb hline
  obtain ⟨hsemi, hparse⟩ :=
    parseLine_printInstrAs (WritesLanes.of_name_or_alias hna) (WritesLanes.of_name_or_alias hnb) i
  obtain ⟨hplain, hnote⟩ := parseLine_lower hline hsemi note
  exact ⟨hplain.trans hparse, hnote.trans hparse⟩

end Machine
end Sys2Proof
end

section
/-! The carry at lane initialisation is what breaks the all-zero state (R104): with the carry 0 the reference transform
never leaves it. -/

namespace Sys2Proof
namespace Machine

/-- All lanes, the carry and the buffer are zero; the cursor is free, since the mixer and the rounds move it (R104). -/
structure RefState.AllZero (r : RefState) : Prop where
  lanes : r.lanes = Vector.replicate 16 0
  carry : r.carry = false
  buf : r.buf = Vector.replicate 64 0

namespace RefState.AllZero

variable {r : RefState}

theorem lane (h : r.AllZero) (l : LaneIx) : r.lanes[l] = 0 := by simp [h.lanes]

theorem byte (h : r.AllZero) : r.byte = 0 := by simp [RefState.byte, h.buf]

/-- A lane written with zero is still zero. -/
theorem lanes_set (h : r.AllZero) (a : LaneIx) : r.lanes.set a 0 = Vector.replicate 16 0 := by simp [h.lanes]

/-- The write of a zero lane and a zero carry. -/
theorem after_write (h : r.AllZero) (a : LaneIx) :
    RefState.AllZero { r with lanes := r.lanes.set a 0, carry := false } :=
  ⟨h.lanes_set a, rfl, h.buf⟩

/-- The mixer's write-back of a zero byte and a zero carry. -/
theorem after_mix (h : r.AllZero) (a : LaneIx) : (r.mix a 0 false).AllZero :=
  ⟨h.lanes_set a, rfl, by simp [RefState.mix, h.buf]⟩

/-- Each of the six micro-operations maps zero lanes, carry and buffer to zero ones (R113 to R115, R134 to R136). -/
theorem after_refExec (h : r.AllZero) (ins : Instr) : (refExec ins r).AllZero := by
  cases ins with
  | adc a b => simpa [refExec, h.lane, h.carry] using h.after_write a
  | xor a b => simpa [refExec, h.lane, h.carry] using h.after_write a
  | swap a => simpa [refExec, h.lane, h.carry] using h.after_write a
  | madc a => simpa [refExec, h.lane, h.byte, h.carry] using h.after_mix a
  | msbc a => simpa [refExec, h.lane, h.byte, h.carry] using h.after_mix a
  | mxor a => simpa [refExec, h.lane, h.byte, h.carry] using h.after_mix a

theorem after_refRun (h : r.AllZero) (t : List Instr) : (refRun t r).AllZero := by
  induction t generalizing r with
  | nil => exact h
  | cons ins t ih => exact ih (h.after_refExec ins)

theorem after_refRow (h : r.AllZero) (t : List Instr) : (refRow t r).AllZero :=
  (h.after_refRun t).after_refRun mixSchedule

theorem after_refOuter (h : r.AllZero) (t : List Instr) : (refOuter t r).AllZero :=
  have hstart : RefState.AllZero { r with z := 0 } := ⟨h.lanes, h.carry, h.buf⟩
  Function.Iterate.rec RefState.AllZero hstart (fun _ h => h.after_refRow t) 4

end RefState.AllZero

/-- The zero IV gives zero lanes (R101). -/
theorem refLanes_zero : refLanes (Vector.replicate 4 0) = Vector.replicate 16 0 := by decide

/-- Settles O60: the start is all zero, and every outer round keeps that; the table need not even be well-formed. -/
theorem zeroCarryZeroBufferStaysZero : Obligations.ZeroCarryZeroBufferStaysZero := by
  unfold Obligations.ZeroCarryZeroBufferStaysZero
  intro t _
  have hstart : RefState.AllZero
      { lanes := refLanes (Vector.replicate 4 0), carry := false, z := 0, buf := Vector.replicate 64 0 } :=
    ⟨refLanes_zero, rfl, rfl⟩
  exact (Function.Iterate.rec RefState.AllZero hstart (fun _ h => h.after_refOuter t) 8).buf

end Machine
end Sys2Proof
end

section
/-! The round function of spec/41_round_function.md: ADC, XOR and SWAP one by one (R113 to R115), and one execution of
the whole table (R110). -/

namespace Sys2Proof
namespace Machine

/-! ### Parts the micro-operations share -/

/-- The field that names a lane is the lane's number in 4 bits (R83). -/
theorem ofNat_eq_laneField (l : LaneIx) : BitVec.ofNat 4 l.val = laneField l :=
  BitVec.eq_of_toNat_eq (Nat.mod_eq_of_lt l.isLt)

@[simp] theorem State.writeLane_lane_same (s : State) (a : LaneIx) (v : Byte) : (s.writeLane a v).lane a = v :=
  Vector.getElem_set_self a.isLt

theorem State.writeLane_sameLanesBut (s : State) (a : LaneIx) (v : Byte) : SameLanesBut a s (s.writeLane a v) :=
  fun l hl => Vector.getElem_set_ne a.isLt l.isLt (fun h => hl (Fin.ext h).symm)

/-- A round-function micro-operation reads and writes only lanes and the carry (R110). -/
theorem effect_round_frame {i : Instr} (h : i.isRound = true) (s : State) :
    (effect i s).z = s.z ∧ SameBuffer s (effect i s) ∧ SameShell s (effect i s) := by
  obtain ⟨hbuf, hz⟩ := effect_round h s
  have hshell := effect_shell i s
  exact ⟨hz, .of_eq hbuf hshell.bufDraw, hshell⟩

/-! ### ADC (R113) -/

/-- The carry out of doubling a byte is its top bit, whatever the carry in. -/
theorem adcCarry_self (x : Byte) (c : Bool) : adcCarry x x c = x.getLsbD 7 := by
  have hc := c.toNat_le
  have hmsb : x.getLsbD 7 = decide (128 ≤ x.toNat) := BitVec.msb_eq_decide x
  rw [adcCarry_eq, hmsb]
  exact decide_eq_decide.mpr (by omega)

/-- Settles O1: the carry is the sum's 9th bit, which for `a = b` is bit 7 of the old lane. -/
theorem adcAddsLanesAndCarry : Obligations.AdcAddsLanesAndCarry := by
  unfold Obligations.AdcAddsLanesAndCarry
  intro a b s
  obtain ⟨hz, hbuf, hshell⟩ := effect_round_frame (i := .adc a b) rfl s
  refine ⟨?_, effect (.adc a b) s, exec_eq_next _ s, ?_, ?_, ?_, ?_, hz, hbuf, hshell⟩
  · rw [ofNat_eq_laneField, ofNat_eq_laneField]
    exact decode_encode (.adc a b)
  · exact s.writeLane_lane_same a _
  · exact adcCarry_eq _ _ _
  · rintro rfl
    exact adcCarry_self _ _
  · exact s.writeLane_sameLanesBut a _

/-! ### XOR (R114) -/

/-- Settles O2: the corner cases are those of the exclusive or of two bytes. -/
theorem xorCombinesLanes : Obligations.XorCombinesLanes := by
  unfold Obligations.XorCombinesLanes
  intro a b s
  obtain ⟨hz, hbuf, hshell⟩ := effect_round_frame (i := .xor a b) rfl s
  have hlane : (effect (.xor a b) s).lanes[a] = s.lanes[a] ^^^ s.lanes[b] := s.writeLane_lane_same a _
  refine ⟨?_, effect (.xor a b) s, exec_eq_next _ s, hlane, ?_, ?_, effect_carry rfl s,
    s.writeLane_sameLanesBut a _, hz, hbuf, hshell⟩
  · rw [ofNat_eq_laneField, ofNat_eq_laneField]
    exact decode_encode (.xor a b)
  · rintro rfl
    rw [hlane, BitVec.xor_self]
    rfl
  · intro hb
    rw [hlane, hb]
    exact BitVec.xor_zero

/-! ### SWAP (R115) -/

/-- The nibbles' exchange as arithmetic: the low nibble becomes the high one. -/
theorem swapNibbles_toNat (x : Byte) : (swapNibbles x).toNat = 16 * (x.toNat % 16) + x.toNat / 16 := by
  revert x; decide

theorem swapNibbles_eq_self {x : Byte} (h : x.toNat / 16 = x.toNat % 16) : swapNibbles x = x :=
  BitVec.eq_of_toNat_eq (by rw [swapNibbles_toNat]; omega)

theorem swapNibbles_swapNibbles (x : Byte) : swapNibbles (swapNibbles x) = x := by
  have hx := x.isLt
  refine BitVec.eq_of_toNat_eq ?_
  rw [swapNibbles_toNat, swapNibbles_toNat]
  omega

theorem effect_swap_lane (a : LaneIx) (s : State) : (effect (.swap a) s).lanes[a] = swapNibbles s.lanes[a] :=
  s.writeLane_lane_same a _

/-- Settles O3: the lane gets its nibbles exchanged, which keeps equal nibbles and undoes itself. -/
theorem swapExchangesNibbles : Obligations.SwapExchangesNibbles := by
  unfold Obligations.SwapExchangesNibbles
  intro a s
  obtain ⟨hz, hbuf, hshell⟩ := effect_round_frame (i := .swap a) rfl s
  refine ⟨?_, effect (.swap a) s, exec_eq_next _ s, ?_, ?_, ⟨_, exec_eq_next _ _, ?_⟩, effect_carry rfl s,
    s.writeLane_sameLanesBut a _, hz, hbuf, hshell⟩
  · rw [ofNat_eq_laneField]
    exact decode_encode (.swap a)
  · rw [effect_swap_lane, swapNibbles_eq_shift]
  · intro heq
    rw [effect_swap_lane, swapNibbles_eq_self heq]
  · rw [effect_swap_lane, effect_swap_lane, swapNibbles_swapNibbles]

/-! ### The whole table (R110) -/

/-- A sequence of round-function micro-operations leaves the cursor and the buffer alone (R110). -/
theorem effects_round {p : List Instr} (h : ∀ i ∈ p, i.isRound = true) (s : State) :
    (effects p s).z = s.z ∧ SameBuffer s (effects p s) := by
  induction p generalizing s with
  | nil => exact ⟨rfl, fun _ => rfl⟩
  | cons i p ih =>
    obtain ⟨hi, hp⟩ := List.forall_mem_cons.mp h
    obtain ⟨hz, hbuf, -⟩ := effect_round_frame hi s
    obtain ⟨hz', hbuf'⟩ := ih hp (effect i s)
    exact ⟨hz'.trans hz, fun y => (hbuf' y).trans (hbuf y)⟩

/-- Settles O52: the engine runs the table's micro-operations one after the other and then is at the mixer; on the
reference's view they are the fold, and each of them keeps the cursor and the buffer. -/
theorem roundFunctionIsFold : Obligations.RoundFunctionIsFold := by
  unfold Obligations.RoundFunctionIsFold
  intro s p hph hk hp hne
  have hround : ∀ i ∈ p, i.isRound = true := fun i hi =>
    have ⟨_, hn⟩ := List.getElem?_of_mem hi
    rfProgram_isRound hp hn
  have hrun := (busyRun_rf hp hph (by rw [hk]; rfl) hne).engineRun
  have hshell := effects_shell p s
  obtain ⟨hz, hbuf⟩ := effects_round hround s
  exact ⟨(effects p s).seek .mix 0 0, hrun, effects_view p s, hz, hbuf, rfl, rfl, rfl, hshell.row, hshell.outer,
    hshell.iv, hshell.ie, hshell.done, hshell.accerr, hshell.rfRom, hshell.mixRom, hshell.rfVariant⟩

end Machine
end Sys2Proof
end

section
/-! The state mixer of spec/42_state_mixer.md: what MADC, MSBC and MXOR share (R130), one by one (R134 to R136), and one
execution of the whole schedule (R131). -/

namespace Sys2Proof
namespace Machine

/-! ### The write-back (R130) -/

/-- A mixer micro-operation leaves the same value in its lane and in the byte at the old cursor, advances the cursor,
and leaves every other lane, byte and field alone but for the carry (R130). -/
theorem effect_mixer_frame {i : Instr} {a : LaneIx} (h : i.mixerLane? = some a) (s : State) :
    (effect i s).bufRead s.z = (effect i s).lanes[a] ∧ (effect i s).z = s.z + 1 ∧
      SameLanesBut a s (effect i s) ∧ SameBufferBut s.z s (effect i s) ∧ SameShell s (effect i s) := by
  obtain ⟨v, hbuf, hlanes, hz⟩ := effect_mixer h s
  have hshell := effect_shell i s
  have hread (y : BitVec 6) : (effect i s).bufRead y = if s.z = y then v else s.bufRead y := by
    rw [← State.bufRead_bufWrite s s.z y v]
    exact State.bufRead_congr (s := s.bufWrite s.z v) hbuf hshell.bufDraw y
  have hlane : (effect i s).lanes[a] = v := by simp [hlanes]
  have hother : SameLanesBut a s (effect i s) := fun l hl => by
    rw [hlanes]
    exact s.writeLane_sameLanesBut a v l hl
  exact ⟨by rw [hread, if_pos rfl, hlane], hz, hother, fun y hy => by rw [hread, if_neg hy.symm], hshell⟩

/-- Settles O7: this is `effect_mixer_frame` of the state that `exec` answers. -/
theorem mixerWritesLaneAndBufferAlike : Obligations.MixerWritesLaneAndBufferAlike := by
  unfold Obligations.MixerWritesLaneAndBufferAlike
  exact fun ins a s h => ⟨effect ins s, exec_eq_next ins s, effect_mixer_frame h s⟩

/-- The cursor's advance by 1 modulo 64 (R130). -/
theorem cursor_succ_toNat (z : BitVec 6) : (z + 1).toNat = (z.toNat + 1) % 64 := BitVec.toNat_add z 1

/-! ### MADC (R134) -/

theorem effect_madc_lane (a : LaneIx) (s : State) :
    (effect (.madc a) s).lanes[a] = BitVec.ofNat 8 (s.lanes[a].toNat + (s.bufRead s.z).toNat + s.carry.toNat) :=
  s.writeLane_lane_same a _

/-- Settles O4: the sum goes to the lane and so, by `effect_mixer_frame`, to the byte at the cursor. -/
theorem madcAddsBufferByte : Obligations.MadcAddsBufferByte := by
  unfold Obligations.MadcAddsBufferByte
  intro a s
  obtain ⟨hbyte, hz, hframe⟩ := effect_mixer_frame (i := .madc a) rfl s
  have hlane := effect_madc_lane a s
  refine ⟨?_, effect (.madc a) s, exec_eq_next _ s, hlane, hbyte.trans hlane, adcCarry_eq _ _ _, ?_, hframe⟩
  · rw [ofNat_eq_laneField]
    exact decode_encode (.madc a)
  · rw [hz, cursor_succ_toNat]

/-! ### MSBC (R135) -/

theorem effect_msbc_lane (a : LaneIx) (s : State) :
    (effect (.msbc a) s).lanes[a] =
      BitVec.ofInt 8 ((s.lanes[a].toNat : Int) - (s.bufRead s.z).toNat - s.carry.toNat) :=
  s.writeLane_lane_same a _

/-- Settles O5: the difference goes to the lane and so to the byte at the cursor; the borrow is its sign. -/
theorem msbcSubtractsBufferByte : Obligations.MsbcSubtractsBufferByte := by
  unfold Obligations.MsbcSubtractsBufferByte
  intro a s
  obtain ⟨hbyte, hz, hframe⟩ := effect_mixer_frame (i := .msbc a) rfl s
  have hlane := effect_msbc_lane a s
  refine ⟨?_, effect (.msbc a) s, exec_eq_next _ s, hlane, hbyte.trans hlane, rfl, ?_, hframe⟩
  · rw [ofNat_eq_laneField]
    exact decode_encode (.msbc a)
  · rw [hz, cursor_succ_toNat]

/-! ### MXOR (R136) -/

theorem effect_mxor_lane (a : LaneIx) (s : State) :
    (effect (.mxor a) s).lanes[a] = s.lanes[a] ^^^ s.bufRead s.z :=
  s.writeLane_lane_same a _

/-- Settles O6: the exclusive or goes to the lane and so to the byte at the cursor; MXOR does not write the carry. -/
theorem mxorCombinesBufferByte : Obligations.MxorCombinesBufferByte := by
  unfold Obligations.MxorCombinesBufferByte
  intro a s
  obtain ⟨hbyte, hz, hframe⟩ := effect_mixer_frame (i := .mxor a) rfl s
  have hlane := effect_mxor_lane a s
  refine ⟨?_, effect (.mxor a) s, exec_eq_next _ s, hlane, hbyte.trans hlane, effect_carry rfl s, ?_, hframe⟩
  · rw [ofNat_eq_laneField]
    exact decode_encode (.mxor a)
  · rw [hz, cursor_succ_toNat]

/-! ### The whole schedule (R131) -/

/-- From the start of the mixer the engine runs the schedule, and then the row ends (R131, R154). -/
theorem busyRun_schedule {s : State} (hph : s.phase = .mix) (hi : s.i = 0) (hm : s.mixRom = mixRomListing) :
    ∃ u : State, BusyRun 16 s u.endOfRow ∧ u.view = refRun mixSchedule s.view ∧ u.iv = s.iv := by
  have hprog : mixProgram s.mixRom = some mixSchedule := hm ▸ mixProgram_mixRomListing
  have hrun := busyRun_mix (q := mixSchedule) hprog hph (by rw [hi]; rfl) (List.cons_ne_nil _ _)
  exact ⟨_, hrun, by rw [State.seek_view, effects_view], (effects_shell mixSchedule s).iv⟩

/-- Settles O53: the schedule's micro-operations are the fold on the reference's view, and the end of the row after them
leaves the lanes, the carry, the buffer and the IV registers alone. -/
theorem stateMixerIsFold : Obligations.StateMixerIsFold := by
  unfold Obligations.StateMixerIsFold
  intro s hph hi hm
  obtain ⟨u, hrun, hview, hiv⟩ := busyRun_schedule hph hi hm
  have hend := u.endOfRow_same
  have hbuf : u.endOfRow.buffer = u.buffer := State.buffer_congr (.of_eq hend.buf hend.bufDraw)
  rw [← hview]
  exact ⟨u.endOfRow, hrun.engineRun, hend.lanes, hend.carry, hbuf, hend.iv.trans hiv⟩

end Machine
end Sys2Proof
end

section
/-! The invariant along the steps of the machine: the cursor stands at `16 * row + i` (R132), the counters inside their
ROMs (R26), the buffer and the ROMs stay well-formed, and DONE is set only while the engine is idle (R36). -/

namespace Sys2Proof
namespace Machine

/-! ### Where the cursor and the counters stand (R26, R132) -/

theorem State.positionOk_of_idle {s : State} (h : s.phase = .idle) : s.PositionOk := by
  rw [State.PositionOk, h]; trivial

theorem State.positionOk_of_init {s : State} (h : s.phase = .init) : s.PositionOk := by
  rw [State.PositionOk, h]; trivial

theorem State.positionOk_rf {s : State} (h : s.phase = .rf) :
    s.PositionOk ↔ s.k.toNat < s.rfLen ∧ s.z.toNat = 16 * s.row.toNat := by
  rw [State.PositionOk, h]

theorem State.positionOk_mix {s : State} (h : s.phase = .mix) :
    s.PositionOk ↔ s.z.toNat = 16 * s.row.toNat + s.i.toNat := by
  rw [State.PositionOk, h]

/-- The position rule reads only the sequencer, the cursor and the length of the table. -/
theorem State.PositionOk.congr {s t : State} (h : s.PositionOk) (hp : t.phase = s.phase) (hrow : t.row = s.row)
    (hk : t.k = s.k) (hi : t.i = s.i) (hz : t.z = s.z) (hrom : t.rfRom = s.rfRom) : t.PositionOk := by
  unfold State.PositionOk State.rfLen at h ⊢
  rwa [hp, hrow, hk, hi, hz, hrom]

theorem State.startRow_positionOk {s : State} (h : s.z.toNat = 16 * s.row.toNat) : s.startRow.PositionOk := by
  by_cases hlen : 0 < s.rfRom.length
  · exact (State.positionOk_rf (if_pos hlen)).mpr ⟨hlen, h⟩
  · exact (State.positionOk_mix (if_neg hlen)).mpr h

theorem State.initStep_positionOk (s : State) : s.initStep.PositionOk := State.startRow_positionOk rfl

theorem State.afterRf_positionOk {s : State} (hp : s.phase = .rf) (h : s.PositionOk) : s.afterRf.PositionOk := by
  obtain ⟨-, hz⟩ := (State.positionOk_rf hp).mp h
  rw [State.afterRf_eq_seek]
  split
  · next hk =>
    have hk' : (s.k + 1).toNat ≤ s.k.toNat + 1 := Nat.mod_le _ _
    exact (State.positionOk_rf (s := s.seek s.phase (s.k + 1) s.i) hp).mpr ⟨Nat.lt_of_le_of_lt hk' hk, hz⟩
  · exact (State.positionOk_mix rfl).mpr hz

/-- After a mixer micro-operation, which advanced the cursor, the sequencer catches up with it. -/
theorem State.afterMix_positionOk {s : State} (hp : s.phase = .mix)
    (hz : s.z.toNat = (16 * s.row.toNat + s.i.toNat + 1) % 64) : s.afterMix.PositionOk := by
  have hrow := s.row.isLt
  obtain ⟨hi, h⟩ | ⟨hi, hr, h⟩ | ⟨-, -, -, h⟩ | ⟨-, -, -, h⟩ := s.afterMix_cases
  · rw [h]
    have hi' : (s.i + 1).toNat = s.i.toNat + 1 := by bv_omega
    have hz' : s.z.toNat = 16 * s.row.toNat + (s.i + 1).toNat := by omega
    exact (State.positionOk_mix (s := { s with i := s.i + 1 }) hp).mpr hz'
  · rw [h]
    have hr' : (s.row + 1).toNat = s.row.toNat + 1 := by bv_omega
    have hz' : s.z.toNat = 16 * (s.row + 1).toNat := by
      rw [hz, hr', hi, show (15 : BitVec 4).toNat = 15 from rfl]
      omega
    exact State.startRow_positionOk hz'
  · rw [h]
    exact State.startRow_positionOk rfl
  · rw [h]
    exact State.positionOk_of_idle rfl

/-- Every engine step keeps the cursor and the counters in step (R132). -/
theorem engineStep_positionOk {s t : State} (h : engineStep s = .next t) (hs : s.PositionOk) : t.PositionOk := by
  obtain ⟨-, rfl⟩ | ⟨-, -, -, rfl⟩ | ⟨hp, p, ins, hr, hi, rfl⟩ | ⟨hp, p, ins, hr, hi, rfl⟩ := engineStep_cases h
  · exact hs
  · exact s.initStep_positionOk
  · have g := effect_shell ins s
    obtain ⟨-, hz⟩ := effect_round (rfProgram_isRound hr hi) s
    exact State.afterRf_positionOk (g.phase.trans hp) (hs.congr g.phase g.row g.k g.i hz g.rfRom)
  · have g := effect_shell ins s
    obtain ⟨-, hz, -⟩ := effect_mixer_frame (mixProgram_lane hr s.i.toFin hi) s
    refine State.afterMix_positionOk (g.phase.trans hp) ?_
    rw [hz, g.row, g.i, cursor_succ_toNat, (State.positionOk_mix hp).mp hs]

/-! ### START -/

theorem State.writeCtrl_start {s : State} (h : s.busy = false) {w : Word32} (hw : w.getLsbD 0 = true) :
    s.writeCtrl w = ((s.writeIe (w.getLsbD 1)).writeDone false).writePhase .init := by
  simp [State.writeCtrl, h, hw]

/-- A host access leaves the phase alone, or it is a START of the idle engine, which also clears DONE (R170). -/
theorem State.hostAccess_phase_or_start (s : State) (a : HostAccess) :
    (s.hostAccess a).phase = s.phase ∨ ((s.hostAccess a).phase = .init ∧ (s.hostAccess a).done = false) := by
  obtain hp | ⟨hl, hw, ht, hd, hb⟩ := s.hostAccess_phase a
  · exact .inl hp
  · obtain ⟨n, hn⟩ := HostAccess.legal_size hl
    rw [s.hostAccess_write hl hw hn, ht, State.hostWrite, State.writeCtrl_start hb hd]
    exact .inr ⟨rfl, rfl⟩

/-! ### Every step keeps the invariant -/

theorem State.Inv.beginStep {s : State} (hs : s.Inv) (rest : List Input) : (s.beginStep rest).Inv :=
  ⟨hs.bufWf, hs.rfWf, hs.mixWf, hs.position, hs.doneIdle⟩

theorem State.Inv.engineStep {s t : State} (hs : s.Inv) (h : engineStep s = .next t) : t.Inv where
  bufWf := engineStep_wf h hs.bufWf
  rfWf := by
    obtain ⟨-, -, -, hb, -, -⟩ := engineStep_frame h
    exact hb.rfRom ▸ hs.rfWf
  mixWf := by
    obtain ⟨-, -, -, hb, -, -⟩ := engineStep_frame h
    exact hb.mixRom ▸ hs.mixWf
  position := engineStep_positionOk h hs.position
  doneIdle := by
    intro hdone
    obtain hd | ⟨-, -, -, -, -, ht⟩ := engineStep_done h
    · have hidle := hs.doneIdle (hd ▸ hdone)
      cases (engineStep_idle hidle).symm.trans h
      exact hidle
    · exact ht

theorem State.Inv.hostAccess {s : State} (hs : s.Inv) (a : HostAccess) : (s.hostAccess a).Inv := by
  have f := s.hostAccess_frame a
  have hbuf := State.hostAccess_wf hs.bufWf a
  obtain hp | ⟨hp, hd⟩ := s.hostAccess_phase_or_start a
  · refine ⟨hbuf, f.rfRom ▸ hs.rfWf, f.mixRom ▸ hs.mixWf, hs.position.congr hp f.row f.k f.i f.z f.rfRom, ?_⟩
    intro hdone
    obtain hd | ⟨hd, -⟩ := s.hostAccess_done a
    · exact hp.trans (hs.doneIdle (hd ▸ hdone))
    · cases hd.symm.trans hdone
  · exact ⟨hbuf, f.rfRom ▸ hs.rfWf, f.mixRom ▸ hs.mixWf, State.positionOk_of_init hp,
      fun hdone => nomatch hd.symm.trans hdone⟩

theorem State.Inv.applyReset {s : State} (hs : s.Inv) : s.applyReset.Inv := by
  have f := s.applyReset_build
  exact ⟨s.applyReset_wf, by rw [f.rfRom, hs.rfWf], by rw [f.mixRom, hs.mixWf], State.positionOk_of_idle rfl,
    fun _ => rfl⟩

/-- Settles O50: an engine step, a host access and a reset each keep the invariant. -/
theorem stepKeepsInv : Obligations.StepKeepsInv := by
  unfold Obligations.StepKeepsInv
  intro s t hs h
  obtain ⟨rest, he⟩ | ⟨e, rest, -, ⟨a, -, rfl⟩ | ⟨p, -, rfl⟩⟩ := step_cases h
  · exact (hs.beginStep rest).engineStep he
  · exact (hs.beginStep rest).hostAccess a
  · exact (hs.beginStep rest).applyReset

end Machine
end Sys2Proof
end

section
/-! The buffer writes of one invocation (R137): how many engine steps and how many buffer writes the sequencer's
position leaves to the end, and that the cursor at a write is the number of writes before it, modulo 64. -/

namespace Sys2Proof
namespace Machine

/-! ### The engine answers a next state -/

theorem State.Inv.exists_rf_op {s : State} (hs : s.Inv) (hp : s.phase = .rf) :
    ∃ p ins, rfProgram s.rfRom = some p ∧ p[s.k.toNat]? = some ins := by
  obtain ⟨hk, -⟩ := (State.positionOk_rf hp).mp hs.position
  obtain ⟨p, hr⟩ := Option.isSome_iff_exists.mp hs.rfWf
  rw [State.rfLen, ← rfProgram_length hr] at hk
  exact ⟨p, p[s.k.toNat], hr, List.getElem?_eq_getElem hk⟩

theorem State.Inv.exists_mix_op {s : State} (hs : s.Inv) :
    ∃ p ins, mixProgram s.mixRom = some p ∧ p[s.i.toNat]? = some ins := by
  obtain ⟨p, hm⟩ := Option.isSome_iff_exists.mp hs.mixWf
  have hi : s.i.toNat < p.length := by
    rw [mixProgram_length hm]
    exact s.i.isLt
  exact ⟨p, p[s.i.toNat], hm, List.getElem?_eq_getElem hi⟩

/-- From every state of the invariant the engine answers a next state (R158). -/
theorem State.Inv.exists_engineStep {s : State} (hs : s.Inv) : ∃ t, Machine.engineStep s = .next t := by
  cases hp : s.phase with
  | idle => exact ⟨_, engineStep_idle hp⟩
  | init => exact ⟨_, engineStep_init hp hs.rfWf hs.mixWf⟩
  | rf =>
    obtain ⟨p, ins, hr, hi⟩ := hs.exists_rf_op hp
    exact ⟨_, engineStep_rf hp hr hi⟩
  | mix =>
    obtain ⟨p, ins, hm, hi⟩ := hs.exists_mix_op
    exact ⟨_, engineStep_mix hp hm hi⟩

/-! ### What is left of an invocation -/

/-- The number of rows of the invocation that ended before the one at hand, 0 to 31 (R150). -/
def State.rowsDone (s : State) : Nat := 4 * s.outer.toNat + s.row.toNat

/-- The number of engine steps to the end of the invocation (R157). -/
def State.stepsLeft (s : State) : Nat :=
  match s.phase with
  | .idle => 0
  | .init => 1 + 32 * (s.rfLen + 16)
  | .rf => s.rfLen - s.k.toNat + 16 + (31 - s.rowsDone) * (s.rfLen + 16)
  | .mix => 16 - s.i.toNat + (31 - s.rowsDone) * (s.rfLen + 16)

/-- The number of buffer writes of the invocation so far: 16 in every row that ended (R137). -/
def State.writesDone (s : State) : Nat :=
  match s.phase with
  | .idle => 512
  | .init => 0
  | .rf => 16 * s.rowsDone
  | .mix => 16 * s.rowsDone + s.i.toNat

theorem State.rowsDone_le (s : State) : s.rowsDone ≤ 31 := by
  have := s.outer.isLt
  have := s.row.isLt
  unfold State.rowsDone
  omega

theorem State.stepsLeft_idle {s : State} (h : s.phase = .idle) : s.stepsLeft = 0 := by
  simp only [State.stepsLeft, h]

theorem State.stepsLeft_init {s : State} (h : s.phase = .init) : s.stepsLeft = 1 + 32 * (s.rfLen + 16) := by
  simp only [State.stepsLeft, h]

theorem State.stepsLeft_rf {s : State} (h : s.phase = .rf) :
    s.stepsLeft = s.rfLen - s.k.toNat + 16 + (31 - s.rowsDone) * (s.rfLen + 16) := by
  simp only [State.stepsLeft, h]

theorem State.stepsLeft_mix {s : State} (h : s.phase = .mix) :
    s.stepsLeft = 16 - s.i.toNat + (31 - s.rowsDone) * (s.rfLen + 16) := by
  simp only [State.stepsLeft, h]

theorem State.writesDone_idle {s : State} (h : s.phase = .idle) : s.writesDone = 512 := by
  simp only [State.writesDone, h]

theorem State.writesDone_init {s : State} (h : s.phase = .init) : s.writesDone = 0 := by
  simp only [State.writesDone, h]

theorem State.writesDone_rf {s : State} (h : s.phase = .rf) : s.writesDone = 16 * s.rowsDone := by
  simp only [State.writesDone, h]

theorem State.writesDone_mix {s : State} (h : s.phase = .mix) :
    s.writesDone = 16 * s.rowsDone + s.i.toNat := by
  simp only [State.writesDone, h]

/-- A busy engine has a step left. -/
theorem State.stepsLeft_pos {s : State} (h : s.phase ≠ .idle) : 0 < s.stepsLeft := by
  have := s.i.isLt
  cases hp : s.phase with
  | idle => exact absurd hp h
  | init => rw [State.stepsLeft_init hp]; omega
  | rf => rw [State.stepsLeft_rf hp]; omega
  | mix => rw [State.stepsLeft_mix hp]; omega

/-- A micro-operation alone does not move the sequencer. -/
theorem SameShell.progress {s t : State} (h : SameShell s t) :
    t.stepsLeft = s.stepsLeft ∧ t.writesDone = s.writesDone := by
  simp only [State.stepsLeft, State.writesDone, State.rowsDone, State.rfLen, h.phase, h.outer, h.row, h.k, h.i, h.rfRom,
    and_self]

/-! ### Each move of the sequencer -/

@[simp] theorem State.startRow_rowsDone (s : State) : s.startRow.rowsDone = s.rowsDone := rfl
@[simp] theorem State.startRow_rfLen (s : State) : s.startRow.rfLen = s.rfLen := rfl

/-- At the start of a row, with or without a table, that row and the later ones are left. -/
theorem State.startRow_progress (s : State) :
    s.startRow.stepsLeft = (31 - s.rowsDone + 1) * (s.rfLen + 16) ∧ s.startRow.writesDone = 16 * s.rowsDone := by
  by_cases hlen : 0 < s.rfRom.length
  · have hp : s.startRow.phase = .rf := if_pos hlen
    rw [State.stepsLeft_rf hp, State.writesDone_rf hp, State.startRow_k, State.startRow_rowsDone, State.startRow_rfLen,
      Nat.succ_mul]
    exact ⟨Nat.add_comm _ _, rfl⟩
  · have hp : s.startRow.phase = .mix := if_neg hlen
    have hzero : s.rfLen = 0 := Nat.eq_zero_of_not_pos hlen
    rw [State.stepsLeft_mix hp, State.writesDone_mix hp, State.startRow_i, State.startRow_rowsDone,
      State.startRow_rfLen, hzero, Nat.succ_mul]
    exact ⟨Nat.add_comm _ _, rfl⟩

theorem State.initStep_progress (s : State) :
    s.initStep.stepsLeft = 32 * (s.rfLen + 16) ∧ s.initStep.writesDone = 0 := by
  have h := State.startRow_progress { s.initStep with z := 0 }
  have hrows : ({ s.initStep with z := 0 } : State).rowsDone = 0 := by
    simp only [State.rowsDone, State.initStep_outer, State.initStep_row]
    rfl
  have hlen : ({ s.initStep with z := 0 } : State).rfLen = s.rfLen := by
    simp only [State.rfLen, State.initStep_rfRom]
  rwa [State.startRow_initStep, hrows, hlen] at h

/-- After a round-function micro-operation one step less is left, and no byte was written. -/
theorem State.afterRf_progress {s : State} (hp : s.phase = .rf) (hk : s.k.toNat < s.rfLen) (hlen : s.rfLen ≤ 255) :
    s.stepsLeft = s.afterRf.stepsLeft + 1 ∧ s.afterRf.writesDone = s.writesDone := by
  rw [State.stepsLeft_rf hp, State.writesDone_rf hp]
  unfold State.afterRf
  split
  · have hk' : (s.k + 1).toNat = s.k.toNat + 1 := by bv_omega
    have hsteps := State.stepsLeft_rf (s := { s with k := s.k + 1 }) hp
    refine ⟨?_, State.writesDone_rf hp⟩
    rw [hsteps, hk']
    change _ = s.rfLen - (s.k.toNat + 1) + 16 + (31 - s.rowsDone) * (s.rfLen + 16) + 1
    omega
  · have hsteps := State.stepsLeft_mix (s := { s with k := 0, i := 0, phase := .mix }) rfl
    refine ⟨?_, State.writesDone_mix rfl⟩
    rw [hsteps]
    change _ = 16 + (31 - s.rowsDone) * (s.rfLen + 16) + 1
    omega

/-- After the last mixer micro-operation of a row, the next row's start is one step on. -/
theorem State.startRow_progress_next {s t : State} (hp : s.phase = .mix) (hi : s.i = 15)
    (hrows : t.rowsDone = s.rowsDone + 1) (hlen : t.rfLen = s.rfLen) :
    s.stepsLeft = t.startRow.stepsLeft + 1 ∧ t.startRow.writesDone = s.writesDone + 1 := by
  have hle := t.rowsDone_le
  obtain ⟨hsteps, hwrites⟩ := t.startRow_progress
  have hrest : 31 - t.rowsDone + 1 = 31 - s.rowsDone := by omega
  rw [hsteps, hwrites, State.stepsLeft_mix hp, State.writesDone_mix hp, hrest, hlen, hrows, hi]
  exact ⟨Nat.add_comm _ _, rfl⟩

/-- After a mixer micro-operation one step less is left, and one byte more was written. -/
theorem State.afterMix_progress {s : State} (hp : s.phase = .mix) :
    s.stepsLeft = s.afterMix.stepsLeft + 1 ∧ s.afterMix.writesDone = s.writesDone + 1 := by
  obtain ⟨hi, h⟩ | ⟨hi, hr, h⟩ | ⟨hi, hr, ho, h⟩ | ⟨hi, hr, ho, h⟩ := s.afterMix_cases
  · have hi' : (s.i + 1).toNat = s.i.toNat + 1 := by bv_omega
    have hsteps := State.stepsLeft_mix (s := { s with i := s.i + 1 }) hp
    have hwrites := State.writesDone_mix (s := { s with i := s.i + 1 }) hp
    rw [h, hsteps, hwrites, hi', State.stepsLeft_mix hp, State.writesDone_mix hp]
    change _ = 16 - (s.i.toNat + 1) + (31 - s.rowsDone) * (s.rfLen + 16) + 1 ∧
      16 * s.rowsDone + (s.i.toNat + 1) = _
    omega
  · have hr' : (s.row + 1).toNat = s.row.toNat + 1 := by bv_omega
    have hrows : ({ s with row := s.row + 1 } : State).rowsDone = s.rowsDone + 1 := by
      simp only [State.rowsDone, hr', Nat.add_assoc]
    rw [h]
    exact State.startRow_progress_next hp hi hrows rfl
  · have ho' : (s.outer + 1).toNat = s.outer.toNat + 1 := by bv_omega
    have hrows : ({ s with outer := s.outer + 1, row := 0, z := 0 } : State).rowsDone = s.rowsDone + 1 := by
      simp only [State.rowsDone, ho', hr]
      rfl
    rw [h]
    exact State.startRow_progress_next hp hi hrows rfl
  · have hrows : s.rowsDone = 31 := by rw [State.rowsDone, hr, ho]; rfl
    rw [h, State.stepsLeft_mix hp, State.writesDone_mix hp, State.stepsLeft_idle rfl, State.writesDone_idle rfl, hrows,
      hi]
    exact ⟨by rw [Nat.sub_self, Nat.zero_mul]; rfl, rfl⟩

/-- Every step of the busy engine is one step less to the end of the invocation, and one buffer write more when it is a
mixer step. -/
theorem State.Inv.engineStep_progress {s t : State} (hs : s.Inv) (hbusy : s.phase ≠ .idle)
    (h : Machine.engineStep s = .next t) :
    s.stepsLeft = t.stepsLeft + 1 ∧ t.writesDone = s.writesDone + if s.phase = .mix then 1 else 0 := by
  obtain ⟨hp, -⟩ | ⟨hp, -, -, rfl⟩ | ⟨hp, p, ins, hr, hi, rfl⟩ | ⟨hp, p, ins, hr, hi, rfl⟩ := engineStep_cases h
  · exact absurd hp hbusy
  · obtain ⟨hsteps, hwrites⟩ := s.initStep_progress
    rw [hsteps, hwrites, State.stepsLeft_init hp, State.writesDone_init hp, if_neg (by simp [hp])]
    exact ⟨Nat.add_comm _ _, rfl⟩
  · have g := effect_shell ins s
    have hlen : (effect ins s).rfLen = s.rfLen := congrArg List.length g.rfRom
    obtain ⟨hk, -⟩ := (State.positionOk_rf hp).mp hs.position
    have hnext := State.afterRf_progress (g.phase.trans hp) (by rwa [g.k, hlen]) (hlen ▸ rfProgram_length_le hr)
    obtain ⟨hsteps, hwrites⟩ := g.progress
    rw [hsteps, hwrites] at hnext
    rwa [if_neg (by simp [hp])]
  · have g := effect_shell ins s
    have hnext := State.afterMix_progress (g.phase.trans hp)
    obtain ⟨hsteps, hwrites⟩ := g.progress
    rw [hsteps, hwrites] at hnext
    rwa [if_pos hp]

/-! ### The cursors of the writes -/

/-- The cursors of the writes from number `n` to the last, number 511: the cursor is the number modulo 64. -/
def cursorsFrom (n : Nat) : List (BitVec 6) := (List.range' n (512 - n)).map (BitVec.ofNat 6)

theorem cursorsFrom_of_lt {n : Nat} (h : n < 512) : cursorsFrom n = BitVec.ofNat 6 n :: cursorsFrom (n + 1) := by
  rw [cursorsFrom, show 512 - n = 512 - (n + 1) + 1 by omega, List.range'_succ, List.map_cons]
  rfl

theorem State.writesDone_lt {s : State} (hp : s.phase = .mix) : s.writesDone < 512 := by
  have hrows := s.rowsDone_le
  rw [State.writesDone_mix hp]
  omega

/-- A mixer step has the cursor at the number of writes before it, modulo 64 (R132). -/
theorem State.Inv.z_eq_writesDone {s : State} (hs : s.Inv) (hp : s.phase = .mix) :
    s.z = BitVec.ofNat 6 s.writesDone := by
  have hr := s.row.isLt
  refine BitVec.eq_of_toNat_eq ?_
  rw [(State.positionOk_mix hp).mp hs.position, BitVec.toNat_ofNat, State.writesDone_mix hp, State.rowsDone]
  omega

theorem bufferWrites_succ {n : Nat} {s t : State} (h : engineStep s = .next t) :
    bufferWrites (n + 1) s = if s.phase = .mix then s.z :: bufferWrites n t else bufferWrites n t := by
  simp only [bufferWrites, h]

/-- From any point of an invocation, the steps to its end make the writes that are left. -/
theorem State.Inv.bufferWrites_eq {n : Nat} {s : State} (hs : s.Inv) (hn : s.stepsLeft = n) :
    bufferWrites n s = cursorsFrom s.writesDone := by
  induction n generalizing s with
  | zero =>
    have hidle : s.phase = .idle := by
      by_contra hbusy
      exact absurd hn (State.stepsLeft_pos hbusy).ne'
    rw [State.writesDone_idle hidle]
    rfl
  | succ n ih =>
    have hbusy : s.phase ≠ .idle := fun hidle => by simp [State.stepsLeft_idle hidle] at hn
    obtain ⟨t, ht⟩ := hs.exists_engineStep
    obtain ⟨hsteps, hwrites⟩ := hs.engineStep_progress hbusy ht
    rw [bufferWrites_succ ht, ih (hs.engineStep ht) (by omega), hwrites]
    split
    · next hp =>
      rw [hs.z_eq_writesDone hp, cursorsFrom_of_lt (State.writesDone_lt hp)]
    · rfl

/-- In 64 consecutive numbers from 0 every cursor occurs once. -/
theorem count_cursors_round (z : BitVec 6) : ((List.range 64).map (BitVec.ofNat 6)).count z = 1 := by
  have hinj : ∀ x ∈ List.range 64, ∀ y ∈ List.range 64, BitVec.ofNat 6 x = BitVec.ofNat 6 y → x = y := by
    intro x hx y hy hxy
    have hnat := congrArg BitVec.toNat hxy
    simp only [BitVec.toNat_ofNat] at hnat
    simp only [List.mem_range] at hx hy
    omega
  have hmem : z ∈ (List.range 64).map (BitVec.ofNat 6) :=
    List.mem_map.mpr ⟨z.toNat, List.mem_range.mpr z.isLt, BitVec.ofNat_toNat 6 z⟩
  exact List.count_eq_one_of_mem (List.nodup_range.map_on hinj) hmem

/-- In `64 * n` consecutive numbers from 0 every cursor occurs `n` times. -/
theorem count_cursors (n : Nat) (z : BitVec 6) : ((List.range (64 * n)).map (BitVec.ofNat 6)).count z = n := by
  induction n with
  | zero => rfl
  | succ n ih =>
    have hround : (List.range 64).map (BitVec.ofNat 6 ∘ (64 * n + ·)) = (List.range 64).map (BitVec.ofNat 6) := by
      refine List.map_congr_left fun j _ => BitVec.eq_of_toNat_eq ?_
      simp only [Function.comp_apply, BitVec.toNat_ofNat]
      omega
    rw [Nat.mul_succ, List.range_add, List.map_append, List.count_append, ih, List.map_map, hround,
      count_cursors_round]

/-- Settles O55: from INIT no write was made yet and all 512 are left, 8 rounds over the 64 bytes. -/
theorem everyByteWrittenEightTimes : Obligations.EveryByteWrittenEightTimes := by
  unfold Obligations.EveryByteWrittenEightTimes
  intro s hs hp
  have hall : bufferWrites (1 + 32 * (s.rfRom.length + 16)) s = (List.range (64 * 8)).map (BitVec.ofNat 6) :=
    calc bufferWrites (1 + 32 * (s.rfRom.length + 16)) s
      _ = cursorsFrom s.writesDone := hs.bufferWrites_eq (State.stepsLeft_init hp)
      _ = cursorsFrom 0 := by rw [State.writesDone_init hp]
      _ = (List.range (64 * 8)).map (BitVec.ofNat 6) := by rw [cursorsFrom, List.range_eq_range']
  rw [hall]
  exact ⟨by rw [List.length_map, List.length_range], count_cursors 8⟩

end Machine
end Sys2Proof
end

section
/-! The driver's steps, one by one (spec/43_driver.md section 2): INIT, a round-function step, a mixer step, and the end
of a row, an outer round and the invocation (R151 to R156). -/

namespace Sys2Proof
namespace Machine

/-! ### One step of each phase (R151, R153, R154) -/

/-- A counter's advance by 1, as the statements write it. -/
theorem ofNat_toNat_succ {w : Nat} (x : BitVec w) : BitVec.ofNat w (x.toNat + 1) = x + 1 := by
  rw [BitVec.ofNat_add, BitVec.ofNat_toNat, BitVec.setWidth_eq]
  rfl

/-- Lane `l` holds byte `l mod 4` of `IVW[3 - l/4]` (R101). -/
theorem initLanes_getElem (iv : Vector Word32 4) (l : LaneIx) :
    (initLanes iv)[l] = (iv[3 - l.val / 4]'(by omega)).extractLsb' (8 * (l.val % 4)) 8 := by
  fin_cases l <;> simp [initLanes, ivByte]

/-- Settles O9: with well-formed ROMs the step is `initStep`, field by field. -/
theorem initLoadsLanesAndCarry : Obligations.InitLoadsLanesAndCarry := by
  unfold Obligations.InitLoadsLanesAndCarry
  intro s hp hr hm
  refine ⟨s.initStep, engineStep_init hp hr hm, fun l => ?_, s.initStep_carry, s.initStep_outer, s.initStep_row,
    s.initStep_z, s.initStep_k, s.initStep_i, s.initStep_phase, .of_eq s.initStep_buf s.initStep_bufDraw,
    ⟨s.initStep_rfRom, s.initStep_mixRom, s.initStep_rfVariant⟩, s.initStep_iv, s.initStep_ie, s.initStep_done,
    s.initStep_accerr, s.initStep_rdata, s.initStep_inputs, s.initStep_draws, s.initStep_bufDraw⟩
  rw [s.initStep_lanes, initLanes_getElem]

theorem State.afterRf_next {s : State} (h : s.k.toNat + 1 < s.rfLen) : s.afterRf = { s with k := s.k + 1 } := if_pos h

theorem State.afterRf_last {s : State} (h : ¬ s.k.toNat + 1 < s.rfLen) :
    s.afterRf = { s with k := 0, i := 0, phase := .mix } := if_neg h

/-- Settles O10: the two moves of `afterRf`, whose test reads what the micro-operation leaves alone. -/
theorem roundStepAdvancesK : Obligations.RoundStepAdvancesK := by
  unfold Obligations.RoundStepAdvancesK
  intro s p ins hph hp hins
  have hshell := effect_shell ins s
  have hstep := engineStep_rf hph hp hins
  have hlen : (effect ins s).rfLen = p.length := by rw [State.rfLen, hshell.rfRom, rfProgram_length hp]
  refine ⟨effect ins s, exec_eq_next ins s, fun hk => ?_, fun hk => ?_⟩
  · rw [hstep, State.afterRf_next (by rwa [hshell.k, hlen]), hshell.k, ofNat_toNat_succ]
  · rw [hstep, State.afterRf_last (by rw [hshell.k, hlen]; omega)]

theorem State.afterMix_next {s : State} (h : s.i.toNat < 15) : s.afterMix = { s with i := s.i + 1 } := if_pos h

theorem State.afterMix_last {s : State} (h : s.i = 15) : s.afterMix = s.endOfRow := by
  rw [State.afterMix, h]; rfl

/-- Settles O11: below 15 `afterMix` moves `i`. -/
theorem mixerStepAdvancesI : Obligations.MixerStepAdvancesI := by
  unfold Obligations.MixerStepAdvancesI
  intro s p ins hph hp hins hi
  have hshell := effect_shell ins s
  refine ⟨effect ins s, exec_eq_next ins s, ?_⟩
  rw [engineStep_mix hph hp hins, State.afterMix_next (by rwa [hshell.i]), hshell.i, ofNat_toNat_succ]

/-! ### The end of a row (R155, R156) -/

/-- The mixer's step at `MIX_ROM[15]` is that micro-operation and then the end of the row (R154). -/
theorem engineStep_mix_last {s : State} {p : List Instr} {ins : Instr} (hph : s.phase = .mix)
    (hp : mixProgram s.mixRom = some p) (hins : p[15]? = some ins) (hi : s.i = 15) :
    engineStep s = .next (effect ins s).endOfRow := by
  have hins' : p[s.i.toNat]? = some ins := by rw [hi]; exact hins
  rw [engineStep_mix hph hp hins', State.afterMix_last (by rw [(effect_shell ins s).i, hi])]

/-- Settles O12: the three branches of `endOfRow`, and the cursor's advance over the row's last byte. -/
theorem endOfRowStartsNextRowOrRound : Obligations.EndOfRowStartsNextRowOrRound := by
  unfold Obligations.EndOfRowStartsNextRowOrRound
  intro s p ins hph hp hins hi
  have hshell := effect_shell ins s
  have hstep := engineStep_mix_last hph hp hins hi
  refine ⟨effect ins s, exec_eq_next ins s, fun hrow => ?_, fun hrow hout => ?_, fun hrow hout => ?_, fun hz => ?_⟩
  · rw [hstep, State.endOfRow_next_row (by rwa [hshell.row]), ofNat_toNat_succ, ← hshell.row, ← hshell.rfRom]
    rfl
  · rw [hstep, State.endOfRow_next_round (hshell.row.trans hrow) (by rwa [hshell.outer]), ofNat_toNat_succ,
      ← hshell.outer, ← hshell.rfRom]
    rfl
  · rw [hstep, State.endOfRow_last (hshell.row.trans hrow) (by rw [hshell.outer, hout]; decide)]
    rfl
  · obtain ⟨-, hz', -⟩ := effect_mixer_frame (mixProgram_lane hp 15 hins) s
    rw [hz', cursor_succ_toNat, hz]
    rfl

/-- Settles O13: the third case of `endOfRowStartsNextRowOrRound`. -/
theorem lastMixerStepEndsInvocation : Obligations.LastMixerStepEndsInvocation := by
  unfold Obligations.LastMixerStepEndsInvocation
  intro s p ins hph hp hins hi hrow hout
  obtain ⟨u, hu, -, -, hend, -⟩ := endOfRowStartsNextRowOrRound s p ins hph hp hins hi
  exact ⟨u, hu, hend hrow hout, rfl⟩

end Machine
end Sys2Proof
end

section
/-! What a whole invocation computes (R157), that it does not depend on what the engine held before (R159), and a second
one after it (R160), for which the engine's steps are put to the machine as its inputs. -/

namespace Sys2Proof
namespace Machine

/-! ### A whole invocation (R157) -/

/-- Settles O54: the run of the busy engine from `INIT`, at its end and at any earlier step. -/
theorem invocationComputesDance : Obligations.InvocationComputesDance := by
  unfold Obligations.InvocationComputesDance
  intro s p hph hp hm
  obtain ⟨t, hrun, hidle, hdone, hbuf⟩ := busyRun_invocation hph ⟨hp, hm⟩
  obtain ⟨-, -, hiv, -, -, -⟩ := hrun.frame
  exact ⟨⟨t, hrun.engineRun, hidle, hdone, hbuf, hiv⟩, fun n hn => hrun.busy_before hn⟩

/-! ### What the engine held before does not matter (R159) -/

/-- The `INIT` step writes the lanes, the carry, the cursor and the counters without reading them (R151, R159). -/
theorem State.initStep_forgets (s : State) (lanes : Vector Byte 16) (carry : Bool) (outer : BitVec 3) (row : BitVec 2)
    (k : BitVec 8) (i : BitVec 4) (z : BitVec 6) :
    { s with lanes := lanes, carry := carry, outer := outer, row := row, k := k, i := i, z := z }.initStep =
      s.initStep := rfl

/-- After `INIT`, engines with the same ROMs, IV and buffer are the same engine. -/
theorem SameEngine.of_initStep {s t : State} (hph : t.phase = s.phase) (hrf : t.rfRom = s.rfRom)
    (hmix : t.mixRom = s.mixRom) (hiv : t.iv = s.iv) (hbuf : SameBuffer s t) :
    SameEngine s.initStep t.initStep := by
  rw [← s.initStep_forgets t.lanes t.carry t.outer t.row t.k t.i t.z]
  refine SameEngine.initStep ⟨?_, hph, rfl, rfl, rfl, rfl, hiv, hrf, hmix⟩
  rw [State.view, State.buffer_congr hbuf]
  rfl

/-- The first step of an engine run. -/
theorem engineRun_succ {n : Nat} {s u : State} (h : engineRun (n + 1) s = .next u) :
    ∃ t, engineStep s = .next t ∧ engineRun n t = .next u := by
  unfold engineRun at h
  split at h
  · next t ht => exact ⟨t, ht, h⟩
  · cases h
  · cases h

/-- From states with the same engine, the same number of engine steps leads to states with the same engine. -/
theorem SameEngine.after_engineRun {n : Nat} {s t u v : State} (h : SameEngine s t) (hu : engineRun n s = .next u)
    (hv : engineRun n t = .next v) : SameEngine u v := by
  induction n generalizing s t with
  | zero => cases hu; cases hv; exact h
  | succ n ih =>
    obtain ⟨s', hs', hu⟩ := engineRun_succ hu
    obtain ⟨t', ht', hv⟩ := engineRun_succ hv
    obtain ⟨t'', ht'', h'⟩ := h.after_engineStep hs'
    cases ht'.symm.trans ht''
    exact ih h' hu hv

theorem engineStep_eq_initStep {s t : State} (hp : s.phase = .init) (h : engineStep s = .next t) : t = s.initStep := by
  obtain ⟨hq, -⟩ | ⟨-, -, -, ht⟩ | ⟨hq, -⟩ | ⟨hq, -⟩ := engineStep_cases h
  · cases hp.symm.trans hq
  · exact ht
  · cases hp.symm.trans hq
  · cases hp.symm.trans hq

/-- Settles O56: the `INIT` step makes the two engines the same, and the same engine takes the same steps. -/
theorem resultIndependentOfEarlierState : Obligations.ResultIndependentOfEarlierState := by
  unfold Obligations.ResultIndependentOfEarlierState
  intro s t u v n hs ht hrf hmix hiv hbuf hu hv
  obtain ⟨s', hs', hu⟩ := engineRun_succ hu
  obtain ⟨t', ht', hv⟩ := engineRun_succ hv
  obtain rfl := engineStep_eq_initStep hs hs'
  obtain rfl := engineStep_eq_initStep ht ht'
  have hinit : SameEngine s.initStep t.initStep := .of_initStep (ht.trans hs.symm) hrf hmix hiv hbuf
  have h := hinit.after_engineRun hu hv
  exact ⟨h.view, h.phase, h.outer, h.row, h.k, h.i⟩

/-! ### The engine's steps as steps of the machine -/

/-- A micro-operation neither reads nor writes the host port. -/
theorem effect_beginStep (ins : Instr) (s : State) (xs : List Input) :
    effect ins (s.beginStep xs) = (effect ins s).beginStep xs := by
  cases ins <;> rfl

theorem State.initStep_beginStep (s : State) (xs : List Input) :
    (s.beginStep xs).initStep = s.initStep.beginStep xs := rfl

theorem State.afterRf_beginStep (s : State) (xs : List Input) : (s.beginStep xs).afterRf = s.afterRf.beginStep xs := by
  unfold State.afterRf
  rw [apply_ite (State.beginStep · xs)]
  rfl

theorem State.endOfRow_beginStep (s : State) (xs : List Input) :
    (s.beginStep xs).endOfRow = s.endOfRow.beginStep xs := by
  unfold State.endOfRow
  rw [apply_ite (State.beginStep · xs), apply_ite (State.beginStep · xs)]
  rfl

theorem State.afterMix_beginStep (s : State) (xs : List Input) :
    (s.beginStep xs).afterMix = s.afterMix.beginStep xs := by
  unfold State.afterMix
  rw [apply_ite (State.beginStep · xs), State.endOfRow_beginStep]
  rfl

/-- An engine step neither reads nor writes the host port. -/
theorem engineStep_beginStep {s t : State} (h : engineStep s = .next t) (xs : List Input) :
    engineStep (s.beginStep xs) = .next (t.beginStep xs) := by
  obtain ⟨hp, rfl⟩ | ⟨hp, hr, hm, rfl⟩ | ⟨hp, p, ins, hr, hi, rfl⟩ | ⟨hp, p, ins, hr, hi, rfl⟩ := engineStep_cases h
  · exact engineStep_idle hp
  · rw [← State.initStep_beginStep]
    exact engineStep_init hp hr hm
  · rw [← State.afterRf_beginStep, ← effect_beginStep]
    exact engineStep_rf hp hr hi
  · rw [← State.afterMix_beginStep, ← effect_beginStep]
    exact engineStep_mix hp hr hi

/-- With an engine step next, or nothing, the machine's step is the engine's (R66). -/
theorem step_engine (s : State) {xs : List Input} (hxs : ∀ x ∈ xs.take 1, x = .engine) :
    step (s.beginStep xs) = engineStep (s.beginStep xs.tail) := by
  cases xs with
  | nil => exact step_nil rfl
  | cons x xs =>
    obtain rfl : x = .engine := hxs x (by simp)
    exact step_cons (s := s.beginStep (.engine :: xs)) rfl

/-- A run of the engine is a run of the machine when nothing but engine steps waits at the port for its length. -/
theorem runsTo_of_engineRun {n : Nat} {s t : State} (h : engineRun n s = .next t) {xs : List Input}
    (hxs : ∀ x ∈ xs.take n, x = .engine) : RunsTo n (s.beginStep xs) (t.beginStep (xs.drop n)) := by
  induction n generalizing s xs with
  | zero => cases h; rfl
  | succ n ih =>
    obtain ⟨u, hu, h⟩ := engineRun_succ h
    have hfirst : ∀ x ∈ xs.take 1, x = .engine := fun x hx => hxs x (List.take_subset_take_left xs (by omega) hx)
    have hrest : ∀ x ∈ xs.tail.take n, x = .engine := by
      cases xs with
      | nil => simp
      | cons y xs => exact fun x hx => hxs x (List.mem_cons_of_mem y hx)
    rw [← List.drop_tail]
    exact .one ((step_engine s hfirst).trans (engineStep_beginStep hu xs.tail)) (ih h hrest)

/-! ### Chained invocations (R160) -/

/-- START, as the host's call writes it to the idle engine (R170). -/
theorem State.hostAccess_startWrite {s : State} (h : s.busy = false) :
    s.hostAccess startWrite = ((s.writeIe false).writeDone false).writePhase .init :=
  (memWrite_ctrl s 0x1).trans (State.writeCtrl_start h rfl)

/-- The write that clears DONE does nothing else (R173). -/
theorem State.hostAccess_clearDoneWrite (s : State) : s.hostAccess clearDoneWrite = s.writeDone false :=
  memWrite_status s 0x2

/-- START and the engine's steps, from an engine that is not busy: an invocation (R157, R170). -/
theorem runsTo_start {s : State} {p : List Instr} {xs : List Input} (hb : s.busy = false) (h : s.HasRoms p)
    (hxs : ∀ x ∈ xs.take (invocationSteps p.length), x = .engine) :
    ∃ t : State, RunsTo (1 + invocationSteps p.length) { s with inputs := .access startWrite :: xs }
        (t.beginStep (xs.drop (invocationSteps p.length))) ∧
      t.phase = .idle ∧ t.done = true ∧ t.accerr = s.accerr ∧ t.iv = s.iv ∧ t.buffer = dance p s.buffer s.iv ∧
      t.HasRoms p := by
  obtain ⟨t, hrun, hidle, hdone, hbuf⟩ :=
    busyRun_invocation (s := ((s.writeIe false).writeDone false).writePhase .init) rfl ⟨h.rf, h.mix⟩
  obtain ⟨haccerr, -, hiv, hbuild, -, -⟩ := hrun.frame
  have hstart : step { s with inputs := .access startWrite :: xs } =
      .next ((((s.writeIe false).writeDone false).writePhase .init).beginStep xs) :=
    (step_access s startWrite xs).trans (congrArg _ (State.hostAccess_startWrite (s := s.beginStep xs) hb))
  refine ⟨t, ?_, hidle, hdone, haccerr, hiv, hbuf, hbuild.rfRom ▸ h.rf, hbuild.mixRom.trans h.mix⟩
  rw [Nat.add_comm]
  exact .one hstart (runsTo_of_engineRun hrun.engineRun hxs)

/-- Settles O59: two invocations with the write that clears DONE between them, which keeps the buffer and the IV. -/
theorem chainedInvocationsRatchet : Obligations.ChainedInvocationsRatchet := by
  unfold Obligations.ChainedInvocationsRatchet
  intro s p hb hp hm
  have hsteps : 1 + 32 * (p.length + 16) = invocationSteps p.length := rfl
  simp only [hsteps]
  obtain ⟨t, ht, hidle, -, haccerr, hiv, hbuf, hroms⟩ :=
    runsTo_start (xs := List.replicate (invocationSteps p.length) .engine ++ accesses [clearDoneWrite, startWrite]) hb
      ⟨hp, hm⟩ (by simp)
  rw [List.drop_left' List.length_replicate] at ht
  have hclear : step (t.beginStep (accesses [clearDoneWrite, startWrite])) =
      .next { (t.writeDone false).beginStep [] with inputs := [.access startWrite] } :=
    (step_access t clearDoneWrite [.access startWrite]).trans (congrArg _ (State.hostAccess_clearDoneWrite _))
  obtain ⟨u, hu, hidle', hdone, haccerr', hiv', hbuf', -⟩ :=
    runsTo_start (s := (t.writeDone false).beginStep []) (xs := []) (t.busy_eq_false.mpr hidle)
      ⟨hroms.rf, hroms.mix⟩ (by simp)
  refine ⟨u.beginStep [], ?_, hidle', hdone, haccerr'.trans haccerr, hiv'.trans hiv, ?_⟩
  · rw [show 2 * (1 + invocationSteps p.length) + 1 = 1 + invocationSteps p.length + (1 + invocationSteps p.length + 1)
      by omega]
    exact ht.trans (.one hclear hu)
  · calc u.buffer = dance p t.buffer t.iv := hbuf'
      _ = dance p (dance p s.buffer s.iv) s.iv := by rw [hbuf, hiv]

end Machine
end Sys2Proof
end

section
/-! The host's commands (spec/44_host_commands.md): what a write to CTRL or STATUS does and what the control registers
read as (R170 to R174), and the call of R176, whose writes put the IV and the buffer in place for the invocation that
its START begins. -/

namespace Sys2Proof
namespace Machine

/-! ### Host writes as steps of the machine (R66)

A write neither reads nor writes the port's data and the inputs that wait. -/

theorem State.bufWriteLE_beginStep (s : State) (xs : List Input) (n : Nat) (z : BitVec 6) (w : Word32) :
    (s.beginStep xs).bufWriteLE z n w = (s.bufWriteLE z n w).beginStep xs := by
  induction n generalizing s z w with
  | zero => rfl
  | succ n ih => exact ih (s.bufWrite z (w.setWidth 8)) (z + 1) (w >>> 8)

theorem State.writeCtrl_beginStep (s : State) (xs : List Input) (w : Word32) :
    (s.beginStep xs).writeCtrl w = (s.writeCtrl w).beginStep xs := by
  unfold State.writeCtrl
  rw [s.beginStep_busy, apply_ite (State.beginStep · xs), apply_ite (State.beginStep · xs)]
  rfl

theorem State.hostWrite_beginStep (s : State) (xs : List Input) (n : Nat) (w : Word32) (g : Target) :
    (s.beginStep xs).hostWrite n w g = (s.hostWrite n w g).beginStep xs := by
  cases g with
  | ctrl => exact s.writeCtrl_beginStep xs w
  | status => simp only [State.hostWrite, State.writeStatus_eq]; rfl
  | config => rfl
  | reserved => rfl
  | iv m => simp only [State.hostWrite, State.beginStep_busy, apply_ite (State.beginStep · xs)]; rfl
  | buf z =>
    simp only [State.hostWrite, State.beginStep_busy, State.bufWriteLE_beginStep, apply_ite (State.beginStep · xs)]
    rfl

theorem State.hostAccess_beginStep (s : State) (xs : List Input) {a : HostAccess} (hw : a.wr = true) :
    (s.beginStep xs).hostAccess a = (s.hostAccess a).beginStep xs := by
  simp only [State.hostAccess, State.badAccess, hw, if_true, State.hostWrite_beginStep,
    apply_ite (State.beginStep · xs)]
  rfl

/-- Host accesses one after the other, with no engine step between them. -/
def State.hostAccesses (s : State) (as : List HostAccess) : State := as.foldl State.hostAccess s

@[simp] theorem State.hostAccesses_nil (s : State) : s.hostAccesses [] = s := rfl

@[simp] theorem State.hostAccesses_cons (s : State) (a : HostAccess) (as : List HostAccess) :
    s.hostAccesses (a :: as) = (s.hostAccess a).hostAccesses as := rfl

theorem State.hostAccesses_append (s : State) (as bs : List HostAccess) :
    s.hostAccesses (as ++ bs) = (s.hostAccesses as).hostAccesses bs := List.foldl_append

/-- Writes that wait at the port take one step each, and do together what they do one after the other. -/
theorem runsTo_writes (s : State) {as : List HostAccess} (hw : ∀ a ∈ as, a.wr = true) (xs : List Input) :
    RunsTo as.length (s.beginStep (accesses as ++ xs)) ((s.hostAccesses as).beginStep xs) := by
  induction as generalizing s with
  | nil => rfl
  | cons a as ih =>
    have hstep : step (s.beginStep (accesses (a :: as) ++ xs)) =
        .next ((s.hostAccess a).beginStep (accesses as ++ xs)) :=
      (step_access (s.beginStep []) a _).trans
        (congrArg _ (s.hostAccess_beginStep (accesses as ++ xs) (hw a List.mem_cons_self)))
    exact .one hstep (ih (s.hostAccess a) fun b hb => hw b (List.mem_cons_of_mem a hb))

/-- A step does not look at the data of an earlier read. -/
theorem runsTo_beginStep {n : Nat} {s t : State} {xs : List Input} :
    RunsTo (n + 1) (s.beginStep xs) t ↔ RunsTo (n + 1) { s with inputs := xs } t := by
  have h : step (s.beginStep xs) = step { s with inputs := xs } := by cases xs <;> rfl
  rw [RunsTo, RunsTo, h]

/-! ### The writes of a call (R176) -/

theorem callWrites_eq (iv : Vector Word32 4) (buf : Vector Byte 64) :
    callWrites iv buf = (ivWrites iv ++ bufWrites buf) ++ [startWrite] := rfl

theorem wr_of_mem_ivWrites {iv : Vector Word32 4} {a : HostAccess} (h : a ∈ ivWrites iv) : a.wr = true := by
  simp only [ivWrites, List.mem_cons, List.not_mem_nil, or_false] at h
  obtain rfl | rfl | rfl | rfl := h <;> rfl

theorem wr_of_mem_bufWrites {buf : Vector Byte 64} {a : HostAccess} (h : a ∈ bufWrites buf) : a.wr = true := by
  obtain ⟨m, -, rfl⟩ := List.mem_map.mp h
  rfl

theorem length_ivWrites_append_bufWrites (iv : Vector Word32 4) (buf : Vector Byte 64) :
    (ivWrites iv ++ bufWrites buf).length = 20 := by
  simp [ivWrites, bufWrites]

theorem hostAccess_memWrite_iv_idle {s : State} (hs : s.busy = false) (n : Fin 4) (w : Word32) :
    s.hostAccess (memWrite (0x10 + 4 * n.val) 4 w) = s.writeIv n w := by
  rw [memWrite_iv, State.hostWrite, hs]; rfl

/-- Some of a call's IV writes, one after the other. -/
theorem State.hostAccesses_ivWords {s : State} (hs : s.busy = false) (iv : Vector Word32 4) (ns : List (Fin 4)) :
    s.hostAccesses (ns.map fun n => memWrite (0x10 + 4 * n.val) 4 iv[n]) =
      { s with iv := ns.foldl (fun v (n : Fin 4) => v.set n iv[n]) s.iv } := by
  induction ns generalizing s with
  | nil => rfl
  | cons n ns ih =>
    rw [List.map_cons, State.hostAccesses_cons, hostAccess_memWrite_iv_idle hs]
    exact ih (s := s.writeIv n iv[n]) hs

/-- The four IV writes of a call leave the IV as written and change nothing else. -/
theorem State.hostAccesses_ivWrites {s : State} (hs : s.busy = false) (iv : Vector Word32 4) :
    s.hostAccesses (ivWrites iv) = { s with iv := iv } := by
  have hall : (((s.iv.set 0 iv[0]).set 1 iv[1]).set 2 iv[2]).set 3 iv[3] = iv := by
    refine Vector.ext fun i hi => ?_
    interval_cases i <;> simp
  exact (State.hostAccesses_ivWords hs iv (List.finRange 4)).trans (congrArg (fun v => { s with iv := v }) hall)

/-- Byte `j` of word `m` of a buffer's contents (R56). -/
theorem bufWord_getElem (buf : Vector Byte 64) (m : Fin 16) {j : Nat} (hj : j < 4) :
    (bufWord buf m).extractLsb' (8 * j) 8 = buf[4 * m.val + j] := by
  obtain ⟨h₀, h₁, h₂, h₃⟩ := bufWord_bytes buf m
  interval_cases j
  · exact h₀
  · exact h₁
  · exact h₂
  · exact h₃

/-- One buffer write of a call puts the four bytes of its word in place and changes nothing else. -/
theorem State.hostAccess_bufWrite {s : State} (hs : s.busy = false) (buf : Vector Byte 64) (m : Fin 16) :
    SameShell s (s.hostAccess (memWrite (0x40 + 4 * m.val) 4 (bufWord buf m))) ∧
      ∀ y : BitVec 6, (s.hostAccess (memWrite (0x40 + 4 * m.val) 4 (bufWord buf m))).bufRead y =
        if y.toNat / 4 = m.val then buf[y.toFin] else s.bufRead y := by
  obtain ⟨t, rfl, hin, hout, -, -, -, hshell⟩ := bufferWriteIsLittleEndian s (0x40 + 4 * m.val) 4 (bufWord buf m) hs
    (by decide) (by omega) (by omega) (by omega)
  refine ⟨hshell, fun y => ?_⟩
  split
  · next hy =>
    have hpos : 4 * m.val + y.toNat % 4 = y.toNat := by omega
    have hbyte := hin (y.toNat % 4) (by omega)
    rw [bufWord_getElem buf m (by omega), Nat.add_sub_cancel_left] at hbyte
    simpa [hpos] using hbyte
  · next hy => exact hout y (by omega)

/-- A byte that is right before some of a call's buffer writes, or in a word they write, is right after them. -/
theorem State.hostAccesses_bufWords {s : State} (hs : s.busy = false) (buf : Vector Byte 64) (ms : List (Fin 16)) :
    SameShell s (s.hostAccesses (ms.map fun m => memWrite (0x40 + 4 * m.val) 4 (bufWord buf m))) ∧
      ∀ y : BitVec 6, s.bufRead y = buf[y.toFin] ∨ (∃ m ∈ ms, y.toNat / 4 = m.val) →
        (s.hostAccesses (ms.map fun m => memWrite (0x40 + 4 * m.val) 4 (bufWord buf m))).bufRead y = buf[y.toFin] := by
  induction ms generalizing s with
  | nil => exact ⟨by constructor <;> rfl, fun y hy => by simpa using hy⟩
  | cons m ms ih =>
    obtain ⟨hshell, hread⟩ := State.hostAccess_bufWrite hs buf m
    obtain ⟨hshell', hread'⟩ := ih ((State.busy_eq_false _).mpr (hshell.phase.trans (s.busy_eq_false.mp hs)))
    refine ⟨hshell.trans hshell', fun y hy => hread' y ?_⟩
    rw [hread y]
    by_cases hm : y.toNat / 4 = m.val
    · exact .inl (if_pos hm)
    · simpa [hm] using hy

/-- The sixteen buffer writes of a call leave the buffer as written and change nothing else. -/
theorem State.hostAccesses_bufWrites {s : State} (hs : s.busy = false) (buf : Vector Byte 64) :
    SameShell s (s.hostAccesses (bufWrites buf)) ∧ (s.hostAccesses (bufWrites buf)).buffer = buf := by
  obtain ⟨hshell, hread⟩ := State.hostAccesses_bufWords hs buf (List.finRange 16)
  refine ⟨hshell, Vector.ext fun i hi => ?_⟩
  rw [State.buffer_getElem _ hi]
  exact hread (BitVec.ofFin ⟨i, hi⟩) (.inr ⟨⟨i / 4, by omega⟩, List.mem_finRange _, rfl⟩)

/-- The writes of a call before START leave the IV and the buffer as written and change nothing else. -/
theorem State.hostAccesses_call {s : State} (hs : s.busy = false) (iv : Vector Word32 4) (buf : Vector Byte 64) :
    SameShell { s with iv := iv } (s.hostAccesses (ivWrites iv ++ bufWrites buf)) ∧
      (s.hostAccesses (ivWrites iv ++ bufWrites buf)).buffer = buf := by
  have h := State.hostAccesses_bufWrites (s := { s with iv := iv }) hs buf
  rwa [State.hostAccesses_append, State.hostAccesses_ivWrites hs]

/-- Settles O58: the writes before START put the IV and the buffer in place, and START begins the invocation on them. -/
theorem callComputesDance : Obligations.CallComputesDance := by
  unfold Obligations.CallComputesDance
  intro s p iv buf hs hp hm
  obtain ⟨hshell, hbuf⟩ := State.hostAccesses_call hs iv buf
  have hwrites : RunsTo 20 { s with inputs := accesses (callWrites iv buf) }
      ((s.hostAccesses (ivWrites iv ++ bufWrites buf)).beginStep (accesses [startWrite])) := by
    have h := runsTo_writes s (as := ivWrites iv ++ bufWrites buf) (fun a ha => (List.mem_append.mp ha).elim
      wr_of_mem_ivWrites wr_of_mem_bufWrites) (accesses [startWrite])
    rw [length_ivWrites_append_bufWrites, accesses, accesses, ← List.map_append, ← callWrites_eq] at h
    exact runsTo_beginStep.mp h
  obtain ⟨t, hstart, hidle, hdone, haccerr, hiv, hdance, -⟩ :=
    runsTo_start (s := s.hostAccesses (ivWrites iv ++ bufWrites buf)) (p := p) (xs := [])
      ((State.busy_eq_false _).mpr (hshell.phase.trans (s.busy_eq_false.mp hs)))
      ⟨hshell.rfRom ▸ hp, hshell.mixRom.trans hm⟩ (by simp)
  rw [Nat.add_comm 1, ← runsTo_beginStep, Nat.add_comm] at hstart
  rw [show 21 + (1 + 32 * (p.length + 16)) = 20 + (1 + invocationSteps p.length) by rw [invocationSteps]; omega]
  refine ⟨_, hwrites.trans hstart, hidle, hdone, haccerr.trans hshell.accerr, hiv.trans hshell.iv, hdance.trans ?_⟩
  rw [hbuf, hshell.iv]

/-! ### START, and the other writes to CTRL and STATUS (R170 to R173) -/

/-- Settles O19: `writeCtrl_start`; with DONE clear the output `irq` is low. -/
theorem startWhenIdle : Obligations.StartWhenIdle := by
  unfold Obligations.StartWhenIdle
  intro s w hs hw
  have h : s.hostAccess (memWrite 0x00 4 w) = { s with ie := w.getLsbD 1, done := false, phase := .init } :=
    (memWrite_ctrl s w).trans (State.writeCtrl_start hs hw)
  rw [h]
  exact ⟨rfl, rfl, Bool.and_false _⟩

/-- Settles O20: `writeCtrl_busy` with bit 0 set. -/
theorem startWhileBusyIsRefused : Obligations.StartWhileBusyIsRefused := by
  unfold Obligations.StartWhileBusyIsRefused
  intro s w hs hw
  rw [memWrite_ctrl, State.writeCtrl_busy hs, hw, Bool.or_true]

theorem State.writeCtrl_without_start (s : State) {w : Word32} (hw : w.getLsbD 0 = false) :
    s.writeCtrl w = s.writeIe (w.getLsbD 1) := by
  rw [State.writeCtrl, hw]; rfl

/-- Settles O21: BUSY is looked at only when bit 0 is set. -/
theorem ctrlWriteWithoutStart : Obligations.CtrlWriteWithoutStart := by
  unfold Obligations.CtrlWriteWithoutStart
  exact fun s w hw => (memWrite_ctrl s w).trans (s.writeCtrl_without_start hw)

/-- Settles O22: `writeStatus_eq` at STATUS's offset. -/
theorem statusWriteOneClears : Obligations.StatusWriteOneClears := by
  unfold Obligations.StatusWriteOneClears
  exact fun s w => (memWrite_status s w).trans (s.writeStatus_eq w)

/-! ### What the control registers read as (R174) -/

/-- Two fields side by side, as a number. -/
theorem append_toNat {m n : Nat} (x : BitVec m) (y : BitVec n) : (x ++ y).toNat = 2 ^ n * x.toNat + y.toNat := by
  rw [BitVec.toNat_append, Nat.shiftLeft_eq, Nat.mul_comm, Nat.two_pow_add_eq_or_of_lt y.isLt]

theorem State.ctrlWord_eq (s : State) : s.ctrlWord = BitVec.ofNat 32 (2 * s.ie.toNat) := by
  rw [State.ctrlWord, ← BitVec.ofNat_toNat, append_toNat, BitVec.toNat_ofBool]
  rfl

theorem State.statusWord_eq (s : State) :
    s.statusWord = BitVec.ofNat 32 (4 * s.accerr.toNat + 2 * s.done.toNat + s.busy.toNat) := by
  rw [State.statusWord, ← BitVec.ofNat_toNat, append_toNat, append_toNat]
  simp only [BitVec.toNat_ofBool]
  congr 1
  omega

theorem State.configWord_eq {s : State} (h : s.rfRom.length ≤ 255) :
    s.configWord = BitVec.ofNat 32 (256 * s.rfVariant.code.toNat + s.rfRom.length) := by
  rw [State.configWord, ← BitVec.ofNat_toNat, append_toNat, BitVec.toNat_ofNat, State.rfLen,
    Nat.mod_eq_of_lt (by omega)]
  rfl

/-- Settles O23: each read shows its register's word on the port, and the words are the numbers their fields spell. -/
theorem controlRegisterReads : Obligations.ControlRegisterReads := by
  unfold Obligations.ControlRegisterReads
  intro s
  rw [memRead_ctrl, memRead_status, memRead_config, s.ctrlWord_eq, s.statusWord_eq]
  exact ⟨rfl, rfl, fun h => by rw [State.configWord_eq h]; rfl⟩

end Machine
end Sys2Proof
end

section
/-! What cannot go wrong (60_exceptions.md): no step stops the engine (R200), a host access made while it is busy, or an
illegal one, never reaches what it works on (R201), ACCERR stays set until it is cleared (R202), `irq` is a level (R204),
and an idle engine holds its state (R214). -/

namespace Sys2Proof
namespace Machine

/-! ### What no host access reaches (R201) -/

theorem HostFrame.sameHidden {s t : State} (h : HostFrame s t) : SameHidden s t :=
  ⟨h.lanes, h.carry, h.outer, h.row, h.k, h.i, h.z⟩

/-- Settles O31: a host access reaches the phase, the IV registers and the buffer only if it is legal and made while the
engine is not busy. -/
theorem hostNeverReachesTheEngine : Obligations.HostNeverReachesTheEngine := by
  unfold Obligations.HostNeverReachesTheEngine
  refine fun s a => ⟨(s.hostAccess_frame a).sameHidden, fun h => ?_⟩
  have hno : a.legal = true → s.busy ≠ false := by
    rintro hl hb
    rw [hl, hb] at h
    exact h.elim nofun nofun
  exact ⟨(s.hostAccess_phase a).resolve_right fun ⟨hl, _, _, _, hb⟩ => hno hl hb,
    (s.hostAccess_iv a).resolve_right fun ⟨hl, _, _, hb⟩ => hno hl hb,
    fun z => (s.hostAccess_bufRead a z).resolve_right fun ⟨hl, _, hb, _⟩ => hno hl hb⟩

/-! ### ACCERR is sticky (R202) -/

theorem State.writeCtrl_accerr (s : State) (w : Word32) :
    (s.writeCtrl w).accerr = (s.accerr || (w.getLsbD 0 && s.busy)) := by
  unfold State.writeCtrl
  cases w.getLsbD 0 <;> cases s.busy <;> simp

/-- A legal read never clears ACCERR. -/
theorem State.hostRead_accerr {s : State} (h : s.accerr = true) (size : BitVec 2) (n : Nat) (g : Target) :
    (s.hostRead size n g).accerr = true := by
  unfold State.hostRead
  split
  · split
    · rfl
    · exact h
  · exact h

/-- A legal write clears ACCERR only as a 1 to its bit of STATUS (R173). -/
theorem State.hostWrite_accerr {s : State} (h : s.accerr = true) (n : Nat) (w : Word32) (g : Target) :
    (s.hostWrite n w g).accerr = true ∨ (g = .status ∧ w.getLsbD 2 = true) := by
  unfold State.hostWrite
  cases g with
  | ctrl => exact .inl (by rw [State.writeCtrl_accerr, h, Bool.true_or])
  | status =>
    simp only [State.writeStatus_eq, h]
    cases w.getLsbD 2 <;> simp
  | config => exact .inl h
  | reserved => exact .inl h
  | iv m =>
    left
    cases s.busy
    · exact h
    · rfl
  | buf z =>
    left
    cases s.busy
    · exact (s.bufWriteLE_shell n z w).accerr.trans h
    · rfl

/-- A host access clears ACCERR only as a legal write of 1 to its bit of STATUS (R36, R173). -/
theorem State.hostAccess_accerr {s : State} (h : s.accerr = true) (a : HostAccess) :
    (s.hostAccess a).accerr = true ∨
      (a.legal = true ∧ a.wr = true ∧ target a.addr = .status ∧ a.wdata.getLsbD 2 = true) := by
  cases hl : a.legal with
  | false => exact .inl (by rw [s.hostAccess_illegal hl, s.badAccess_accerr])
  | true =>
    obtain ⟨n, hn⟩ := HostAccess.legal_size hl
    cases hw : a.wr with
    | false => exact .inl (by rw [s.hostAccess_read hl hw hn, State.hostRead_accerr h])
    | true =>
      rw [s.hostAccess_write hl hw hn]
      exact (State.hostWrite_accerr h n a.wdata _).imp_right fun hc => ⟨rfl, rfl, hc⟩

/-- Settles O33: the engine never writes ACCERR, and a host access clears it only as `hostAccess_accerr` says. -/
theorem accerrIsSticky : Obligations.AccerrIsSticky := by
  unfold Obligations.AccerrIsSticky
  intro s t h hset hclear
  obtain ⟨rest, he⟩ | ⟨e, rest, hin, ⟨a, rfl, rfl⟩ | ⟨p, rfl, rfl⟩⟩ := step_cases h
  · obtain ⟨hacc, -⟩ := engineStep_frame he
    cases (hacc.trans hset).symm.trans hclear
  · obtain hacc | hc := State.hostAccess_accerr (s := s.beginStep rest) hset a
    · cases hacc.symm.trans hclear
    · exact ⟨_, rest, hin, .inr ⟨a, rfl, hc⟩⟩
  · exact ⟨_, rest, hin, .inl ⟨p, rfl⟩⟩

/-! ### No step stops the engine (R200, R214) -/

/-- From every state of the invariant the machine answers a next state, whatever input waits. -/
theorem State.Inv.exists_step {s : State} (hs : s.Inv) : ∃ t, step s = .next t := by
  cases hin : s.inputs with
  | nil => exact step_nil hin ▸ (hs.beginStep []).exists_engineStep
  | cons e rest =>
    rw [step_cons hin]
    cases e with
    | engine => exact (hs.beginStep rest).exists_engineStep
    | access a => exact ⟨_, rfl⟩
    | rst p => exact ⟨_, rfl⟩

/-- Settles O51: `effect` is a micro-operation's next state, and the invariant gives every step of the machine one. -/
theorem engineNeverStops : Obligations.EngineNeverStops := by
  unfold Obligations.EngineNeverStops
  exact ⟨fun i s => ⟨_, exec_eq_next i s⟩, fun _ hs => hs.exists_step⟩

/-- Settles O14: this is `engineStep_idle`. -/
theorem idleEngineHoldsAllState : Obligations.IdleEngineHoldsAllState := by
  unfold Obligations.IdleEngineHoldsAllState
  exact fun _ h => engineStep_idle h

/-! ### The output `irq` (R204) -/

theorem State.irq_eq_true (s : State) : s.irq = true ↔ s.ie = true ∧ s.done = true := by
  rw [State.irq, Bool.and_eq_true]

theorem State.irq_of_not_done {s : State} (h : s.done = false) : s.irq = false := by
  rw [State.irq, h, Bool.and_false]

/-- Settles O32: both the write that clears DONE and START leave DONE clear; `irq` does not look at ACCERR. -/
theorem irqIsEnabledDone : Obligations.IrqIsEnabledDone := by
  unfold Obligations.IrqIsEnabledDone
  refine fun s => ⟨s.irq_eq_true, State.irq_of_not_done ?_, fun w hb hw => State.irq_of_not_done ?_, fun _ => rfl⟩
  · rw [memWrite_status, State.writeStatus_eq]
    exact Bool.and_false _
  · rw [memWrite_ctrl, State.writeCtrl_start hb hw]
    rfl

end Machine
end Sys2Proof
end

section
/-! A cycle with `rst` sampled 1 (R220, R221): what a reset keeps of the state it meets, and what it draws. -/

namespace Sys2Proof
namespace Machine

/-- Nothing is written since the reset, so each byte reads as this reset's draw (R42). -/
theorem State.applyReset_bufRead (s : State) (z : BitVec 6) :
    s.applyReset.bufRead z = Config.drawBuf s.draws z.toNat := rfl

/-- A reset looks at nothing of the old state but what is hardwired, the waiting inputs and the count of draws. -/
theorem State.applyReset_congr {s t : State} (hb : SameBuild s t) (hin : t.inputs = s.inputs)
    (hd : t.draws = s.draws) : s.applyReset = t.applyReset := by
  simp only [State.applyReset, hb.rfRom, hb.mixRom, hb.rfVariant, hin, hd]

/-- Settles O41: the step answers `applyReset`, which writes R41's values, draws the buffer and reads only what
`applyReset_congr` lists. -/
theorem resetAbortsAndForgets : Obligations.ResetAbortsAndForgets := by
  unfold Obligations.ResetAbortsAndForgets
  constructor
  · intro s p
    exact ⟨s.applyReset, rfl, rfl, rfl, rfl, rfl, State.irq_of_not_done rfl, s.applyReset_build, s.applyReset_bufRead⟩
  · intro s t p q hb hin hd
    exact congrArg Host.Outcome.next (State.applyReset_congr hb hin hd)

end Machine
end Sys2Proof
end
